-- ==== Sys2Proof/Word.lean ====
section
/-! DEFINITION. The values of the machine: `00_scope.md` R7, R9. Every register and every set cell holds one mathematical
integer; there is no bit field anywhere in the architecture. So a value, and a word (a cell read as part of an
instruction), is an `Int`, not a bit vector. -/

namespace Sys2Proof

/-- What a memory read answers: a set cell's integer, or `none` for UNSET, the undefined marker (R9, R36). -/
abbrev Cell := Option Int

/-- Characters of program text and of printed lines (R98, R108). -/
abbrev Text := List Char

end Sys2Proof
end

