-- ==== Sys2Proof/Syntax.lean ====
section
/-! DEFINITION. The instruction set as syntax: registers, opcodes, argument kinds, arities, instructions
(`00_scope.md` R1, R11; `30_encoding.md` R80 to R83, R90). -/

namespace Sys2Proof

/-- The four registers (R20). -/
inductive Reg where
  | ip | r1 | r2 | r3
deriving DecidableEq, Repr

/-- The registers in the order the source lists them (R20). -/
def Reg.all : List Reg := [.ip, .r1, .r2, .r3]

/-- The closed set of eight opcodes (R90). -/
inductive Opcode where
  | error | noop | rset | rcpy | radd | mset | mget | jilt
deriving DecidableEq, Repr

/-- The opcodes in the order the source lists them (R90). -/
def Opcode.all : List Opcode := [.error, .noop, .rset, .rcpy, .radd, .mset, .mget, .jilt]

/-- The kinds of an argument position (R11, R82). -/
inductive Kind where
  | reg   -- Register-reference
  | lit   -- Numeric-literal
  | addr  -- Memory-address
  | pos   -- Program-position
deriving DecidableEq, Repr

/-- The argument schema, declared and never inferred (R6, R83): `schemaOf` of R107. -/
def Opcode.kinds : Opcode → List Kind
  | .error => []
  | .noop => []
  | .rset => [.reg, .lit]
  | .rcpy => [.reg, .reg]
  | .radd => [.reg, .reg]
  | .mset => [.addr, .reg]
  | .mget => [.addr, .reg]
  | .jilt => [.reg, .lit, .pos]

/-- `ARITY(op)`: the length of the schema (R5, R11). -/
def Opcode.arity (op : Opcode) : Nat := op.kinds.length

/-- An instruction with its operands decoded: a register for a REG word, the integer itself for a LIT, ADDR or POS word
(R83, R87, R88). One constructor per row of `opcode_table.json`. -/
inductive Instr where
  | error
  | noop
  | rset (reg : Reg) (literal : Int)
  | rcpy (src dest : Reg)
  | radd (accum addend : Reg)
  | mset (address : Int) (reg : Reg)
  | mget (address : Int) (reg : Reg)
  | jilt (reg : Reg) (literal target : Int)
deriving DecidableEq, Repr

/-- The opcode of an instruction. -/
def Instr.opcode : Instr → Opcode
  | .error => .error
  | .noop => .noop
  | .rset _ _ => .rset
  | .rcpy _ _ => .rcpy
  | .radd _ _ => .radd
  | .mset _ _ => .mset
  | .mget _ _ => .mget
  | .jilt _ _ _ => .jilt

/-- How many words the instruction occupies: `1 + ARITY(op)` (R80, R97). -/
def Instr.length (i : Instr) : Nat := 1 + i.opcode.arity

/-- The words of an instruction that are integers taken as they stand: its LIT, ADDR and POS operands (R88). -/
def Instr.rawOperands : Instr → List Int
  | .error => []
  | .noop => []
  | .rset _ literal => [literal]
  | .rcpy _ _ => []
  | .radd _ _ => []
  | .mset address _ => [address]
  | .mget address _ => [address]
  | .jilt _ literal target => [literal, target]

end Sys2Proof
end

