-- ==== Sys2Proof/Config.lean ====
section
/-! DEFINITION. The implementation parameters of `00_scope.md` R5 as plain data, and the one value of the spec that
stays free (`DISASM_PLACEHOLDER`). Their default values stand in `Decode.lean` and `Machine/State.lean`. -/

namespace Sys2Proof

/-- `OPNUM`: the word value of each opcode, a non-negative integer (R5, R6, D1). -/
structure OpNum where
  error : Nat
  noop  : Nat
  rset  : Nat
  rcpy  : Nat
  radd  : Nat
  mset  : Nat
  mget  : Nat
  jilt  : Nat
deriving DecidableEq, Repr

/-- `REGNUM`: the word value of each register (R5, R6, D2). -/
structure RegNum where
  ip : Nat
  r1 : Nat
  r2 : Nat
  r3 : Nat
deriving DecidableEq, Repr

/-- `ERROR_EXEC`: what executing the ERROR opcode does (R5, R141, D8). -/
inductive ErrorExec where
  | fault    -- raise Fault(ErrorOpcode), the spec's decision
  | noop     -- behave as NOOP
  | unknown  -- raise Error(UnknownOpcode)
deriving DecidableEq, Repr

/-- The parameters in force for one session (R5, R259 item 4). `none` for a width means unbounded. -/
structure Config where
  /-- `OPNUM` (D1). -/
  opnum      : OpNum
  /-- `REGNUM` (D2). -/
  regnum     : RegNum
  /-- `W`: the width of a value in bits (D3). -/
  valueWidth : Option Nat
  /-- `A`: the width of an address in bits (D4). -/
  addrWidth  : Option Nat
  /-- `ERROR_EXEC` (D8). -/
  errorExec  : ErrorExec
  /-- `DEFAULT_TICK_BUDGET`: `run`'s budget when the caller gives none (D12). -/
  tickBudget : Nat
deriving DecidableEq, Repr

/-- `DISASM_PLACEHOLDER`: what the disassembler prints for an opcode value it does not recognise. The spec leaves it
open (R5, D21) and no rule of the machine reads it: a FREE VALUE, log 16. -/
opaque Config.disasmPlaceholder : Text

end Sys2Proof
end

