-- ==== Sys2Proof/Decode.lean ====
section
/-! DEFINITION. Encoding and decoding (`30_encoding.md` R80 to R97): the default numbering, the legal ranges of words,
the opcode and register decoders, operand decode, the whole decoder on a list of words, the encoder, and the bit-numbered
form of a table word that the host asks for. -/

namespace Sys2Proof

/-! ## The default parameters -/

/-- The default `OPNUM` (R90, D1): the position in the source's listing. -/
def OpNum.default : OpNum :=
  { error := 0, noop := 1, rset := 2, rcpy := 3, radd := 4, mset := 5, mget := 6, jilt := 7 }

/-- The default `REGNUM` (R20, R87, D2). -/
def RegNum.default : RegNum := { ip := 0, r1 := 1, r2 := 2, r3 := 3 }

/-- The default parameters of R5. -/
def Config.default : Config :=
  { opnum := OpNum.default, regnum := RegNum.default, valueWidth := none, addrWidth := none,
    errorExec := .fault, tickBudget := 10000 }

/-! ## The ranges of values and addresses -/

/-- A value fits the width `W` (R160): every integer where `W` is unbounded, else
`-2^(W-1) <= v <= 2^(W-1) - 1`. -/
def Config.fits (c : Config) (v : Int) : Bool :=
  match c.valueWidth with
  | none => true
  | some w => decide (-(2 : Int) ^ (w - 1) ≤ v) && decide (v ≤ (2 : Int) ^ (w - 1) - 1)

/-- `ok(a)` of R129: the address test of R51, `0 <= a` and `a < 2^A` where `A` is finite. -/
def Config.okAddr (c : Config) (a : Int) : Bool :=
  decide (0 ≤ a) &&
    match c.addrWidth with
    | none => true
    | some w => decide (a < (2 : Int) ^ w)

/-! ## Numbers of opcodes and registers -/

/-- `OPNUM(op)` as a word (R90). -/
def Config.opNum (c : Config) : Opcode → Int
  | .error => (c.opnum.error : Int)
  | .noop => (c.opnum.noop : Int)
  | .rset => (c.opnum.rset : Int)
  | .rcpy => (c.opnum.rcpy : Int)
  | .radd => (c.opnum.radd : Int)
  | .mset => (c.opnum.mset : Int)
  | .mget => (c.opnum.mget : Int)
  | .jilt => (c.opnum.jilt : Int)

/-- `REGNUM(r)` as a word (R87). -/
def Config.regNum (c : Config) : Reg → Int
  | .ip => (c.regnum.ip : Int)
  | .r1 => (c.regnum.r1 : Int)
  | .r2 => (c.regnum.r2 : Int)
  | .r3 => (c.regnum.r3 : Int)

/-- `OPDEC` (R91): total on every integer, by equality of the whole word. -/
def Config.opDec (c : Config) (w : Int) : Option Opcode :=
  Opcode.all.find? fun op => decide (c.opNum op = w)

/-- The register a REG word names (R87); `none` where it names none (R95). -/
def Config.regDec (c : Config) (v : Int) : Option Reg :=
  Reg.all.find? fun r => decide (c.regNum r = v)

/-! ## The decoder -/

/-- Why a list of words is no instruction, by name. -/
inductive DecodeError where
  /-- There is no opcode word: what the machine reports as `Halted` (R122). -/
  | noWord
  /-- No opcode has this number (R93, R123). -/
  | unknownOpcode (w : Int)
  /-- Fewer argument words than the arity (R125). -/
  | arityMismatch (expected actual : Nat)
  /-- A REG word that names no register (R95, R126). -/
  | badRegister (v : Int)
deriving DecidableEq, Repr

/-- Resolves one REG word (R87, R126). -/
def Config.regArg (c : Config) (v : Int) : Except DecodeError Reg :=
  match c.regDec v with
  | some r => .ok r
  | none => .error (.badRegister v)

/-- Operand decode (R126): the argument words of an opcode, lowest position first; LIT, ADDR and POS words pass
through as they stand (R88). -/
def Config.decodeArgs (c : Config) (op : Opcode) (v : List Int) : Except DecodeError Instr :=
  match op, v with
  | .error, [] => .ok .error
  | .noop, [] => .ok .noop
  | .rset, [reg, literal] => do
    let r ← c.regArg reg
    .ok (.rset r literal)
  | .rcpy, [src, dest] => do
    let a ← c.regArg src
    let b ← c.regArg dest
    .ok (.rcpy a b)
  | .radd, [accum, addend] => do
    let a ← c.regArg accum
    let b ← c.regArg addend
    .ok (.radd a b)
  | .mset, [address, reg] => do
    let r ← c.regArg reg
    .ok (.mset address r)
  | .mget, [address, reg] => do
    let r ← c.regArg reg
    .ok (.mget address r)
  | .jilt, [reg, literal, target] => do
    let r ← c.regArg reg
    .ok (.jilt r literal target)
  | op, v => .error (.arityMismatch op.arity v.length)

/-- The decoder on a list of words (R80, R91, R97): the instruction at its head with the words after it, or the reason
there is none. Total on every list. -/
def decode (c : Config) : List Int → Except DecodeError (Instr × List Int)
  | [] => .error .noWord
  | w :: rest =>
    match c.opDec w with
    | none => .error (.unknownOpcode w)
    | some op =>
      if rest.length < op.arity then .error (.arityMismatch op.arity rest.length)
      else
        match c.decodeArgs op (rest.take op.arity) with
        | .error e => .error e
        | .ok i => .ok (i, rest.drop op.arity)

/-! ## The encoder -/

/-- The argument words of an instruction, in schema order (R83). -/
def encodeArgs (c : Config) : Instr → List Int
  | .error => []
  | .noop => []
  | .rset reg literal => [c.regNum reg, literal]
  | .rcpy src dest => [c.regNum src, c.regNum dest]
  | .radd accum addend => [c.regNum accum, c.regNum addend]
  | .mset address reg => [address, c.regNum reg]
  | .mget address reg => [address, c.regNum reg]
  | .jilt reg literal target => [c.regNum reg, literal, target]

/-- The words of an instruction: the opcode word, then the argument words (R80, R84). -/
def encode (c : Config) (i : Instr) : List Int := c.opNum i.opcode :: encodeArgs c i

/-! ## Bit slices, and the bit-numbered word of the host

No rule of the machine uses a bit of a word (R7). `bits`, `sext` and `zext` are defined because R7 defines them, and they
serve one thing: to read the host's numbering of an instruction's bits. -/

/-- `bits[hi:lo]` of the two's-complement form of `v`, as a non-negative integer (R7). -/
def bits (hi lo : Nat) (v : Int) : Int := (v / (2 : Int) ^ lo) % (2 : Int) ^ (hi + 1 - lo)

/-- `zext_N(v)`: the low `n` bits of `v`, extended by zeros (R7). -/
def zext (n : Nat) (v : Int) : Int := v % (2 : Int) ^ n

/-- `sext_N(v)`: the low `n` bits of `v`, extended by their top bit (R7). -/
def sext (n : Nat) (v : Int) : Int :=
  if zext n v < (2 : Int) ^ (n - 1) then zext n v else zext n v - (2 : Int) ^ n

/-- How many bits stand for one cell in the host's numbering of an instruction's bits. The machine has none: a cell is an
indivisible integer (R52). DESIGN CHOICE, log 10. -/
def tableCellBits : Nat := 32

/-- The words of the longest instruction (R80): 4. -/
def longestInstr : Nat := 4

/-- Word `k` of an instruction whose bits are `w`: bits `32k + 31` down to `32k`, read as a signed integer (log 10). -/
def tableCell (w k : Nat) : Int :=
  sext tableCellBits (bits (tableCellBits * k + (tableCellBits - 1)) (tableCellBits * k) (w : Int))

/-- The cells of an instruction given as `nbits` bits `w`: every bit from `nbits` up is 0 (log 10). -/
def tableWords (nbits w : Nat) : List Int :=
  (List.range longestInstr).map (tableCell (w % 2 ^ nbits))

/-- The instruction the decoder reads from an instruction whose bits are `w`, under the default parameters. -/
def decodeTableWord (nbits w : Nat) : Option Instr :=
  match decode Config.default (tableWords nbits w) with
  | .ok (i, _) => some i
  | .error _ => none

end Sys2Proof
end

