-- ==== Sys2Proof/WellFormed.lean ====
section
/-! DEFINITION. The checks on parameters and instructions that their types do not make: `00_scope.md` R6 and
`42_register_ops.md` R160. -/

namespace Sys2Proof

/-- The constraints every choice of parameters meets (R6): `OPNUM` injective, `REGNUM` a bijection onto 0..3. Every value
width has at least one bit, so that the range of R160 is one of two's complement. -/
def Config.wellFormed (c : Config) : Bool :=
  decide (Opcode.all.map c.opNum).Nodup &&
  decide (Reg.all.map c.regNum).Nodup &&
  Reg.all.all (fun r => decide (c.regNum r ≤ 3)) &&
  (match c.valueWidth with
   | none => true
   | some w => decide (1 ≤ w))

/-- An instruction whose integer operands fit the width of a value, so that it can stand in memory (R160). Under the
default parameters every instruction is well formed. -/
def Instr.wellFormed (c : Config) (i : Instr) : Bool := i.rawOperands.all c.fits

end Sys2Proof
end

