-- ==== Sys2Proof/Machine/State.lean ====
section
/-! DEFINITION. The state of one session (`10_state.md`), the reasons a step can stop outside the machine, and the state
after reset. -/

namespace Sys2Proof.Machine

/-- The causes of `Error(...)` (R30, R205). -/
inductive ErrorCause where
  | unknownOpcode (w : Int)                 -- R207: the word that failed to decode
  | arityMismatch (expected actual : Nat)    -- R208: declared arity, argument words obtained
deriving DecidableEq, Repr

/-- The causes of `Fault(...)` (R30, R205). -/
inductive FaultCause where
  | errorOpcode                -- R209
  | badRegister (v : Int)     -- R210
  | badAddress (a : Int)      -- R211
  | unsetLoad (a : Int)       -- R212
  | valueRange (v : Int)      -- R213
deriving DecidableEq, Repr

/-- The execution state of the session (R30, R200). -/
inductive Status where
  | running
  | halted
  | error (e : ErrorCause)
  | budgetExceeded
  | fault (f : FaultCause)
deriving DecidableEq, Repr

/-- `Halted`, `Error` and `Fault` are terminal; `Running` and `BudgetExceeded` are not (R31, R202, R204). -/
def Status.terminal : Status → Bool
  | .running => false
  | .halted => true
  | .error _ => true
  | .budgetExceeded => false
  | .fault _ => true

/-- Memory as the list of its set cells: address and integer (R35, R36). An address that is not listed is UNSET. A cell
holds a whole integer and no byte (R52), so the entries are not `Host.Cell`s, log 9. -/
abbrev Memory := List (Nat × Int)

/-- The canonical form: addresses strictly rising. An unlisted address reads as UNSET, which no entry can hold, so no
entry ever equals what an unlisted address reads as. -/
abbrev Memory.wf (m : Memory) : Prop := (m.map Prod.fst).Pairwise (· < ·)

/-- The whole state of a session: `(x, mem, status, last)` and the parameters in force (R5, R24; log 1). -/
structure State where
  /-- The parameters of the session; no step changes them (log 1). -/
  cfg    : Config
  /-- Register 0, the program counter: the address of the next word to fetch (R25). -/
  ip     : Int
  /-- Register 1 (R20). -/
  r1     : Int
  /-- Register 2 (R20). -/
  r2     : Int
  /-- Register 3 (R20). -/
  r3     : Int
  /-- The set cells (R35). -/
  mem    : Memory
  /-- The status register (R30). -/
  status : Status
  /-- The most recent completed instruction with its decoded operands (R33; log 12). -/
  last   : Option Instr
deriving DecidableEq, Repr

/-- Why a step would stop outside the machine's own status. There is no constructor: every exception the spec describes
is taken as a next state whose `status` holds the cause (R10, R216), so no step of this model faults, log 17. -/
inductive Fault
deriving DecidableEq, Repr

/-- What the model gives no meaning to. Every reason but the first is one the spec itself refuses. -/
inductive Refusal where
  /-- Raised by an arm of `exec` whose instruction has no meaning yet; no arm is left that raises it. Safe. -/
  | notModelled (mnemonic : String)
  /-- Raised by the host operations `step`, `run`, `snapshot`, `dump` before the first load, which R245 leaves undefined. Safe. -/
  | notLoaded
  /-- Raised by `load` for a negative offset, which R249 refuses, or for an offset no register of width `W` can hold, log 11. Safe. -/
  | badOffset (offset : Int)
  /-- Raised by `load` for an image that does not fit below `2^A` (R249). Safe. -/
  | imageTooLong (offset : Int) (length : Nat)
  /-- Raised by `load` for an image with a word outside the width `W` (R160). Safe. -/
  | wordOutOfRange (v : Int)
  /-- Raised by the assembler for a line with a known mnemonic and malformed or miscounted arguments (R104). Safe. -/
  | malformedLine (line : Text)
deriving DecidableEq, Repr

/-- The machine right after reset. The only reset is a load (R240); this is the load of the empty image at the default
offset 0 over the all-unset power-on memory, under the default parameters (R43, R245, R246, R249; log 8). -/
def State.reset : State :=
  { cfg := Config.default, ip := 0, r1 := 0, r2 := 0, r3 := 0, mem := [], status := .running, last := none }

end Sys2Proof.Machine
end

