-- ==== Sys2Proof/Machine/Ops.lean ====
section
/-! DEFINITION. The named operations over registers, memory and status that the meanings share: register access (R8, R20,
R21), the memory interface (R9, R50), raising an exception (R10, R216) and completing an instruction (R128). There is no
return from an exception (R218); the one return to `Running` that is not a load is `resume` (R204). -/

namespace Sys2Proof.Machine

/-- What an instruction's effect answers. -/
abbrev Result := Host.Outcome State Fault Refusal

/-! ## Registers -/

/-- `x[i]`: no register is hardwired (R8, R21). -/
def State.reg (s : State) : Reg → Int
  | .ip => s.ip
  | .r1 => s.r1
  | .r2 => s.r2
  | .r3 => s.r3

/-- `x[i] <- v` without the range test of R160; writing register 0 is a control transfer (R21, R191). -/
def State.setReg (s : State) (r : Reg) (v : Int) : State :=
  match r with
  | .ip => { s with ip := v }
  | .r1 => { s with r1 := v }
  | .r2 => { s with r2 := v }
  | .r3 => { s with r3 := v }

/-- `pc <- t`: another name for a write of register 0 without the range test (R8). -/
def State.withIp (s : State) (v : Int) : State := { s with ip := v }

/-! ## Memory -/

/-- The cell at an address (R35, R36): `none` is UNSET. -/
def Memory.read : Memory → Nat → Cell
  | [], _ => none
  | (b, v) :: m, a => if a = b then some v else Memory.read m a

/-- Sets one cell and changes no other (R50); the list stays in rising order. -/
def Memory.write : Memory → Nat → Int → Memory
  | [], a, v => [(a, v)]
  | (b, w) :: m, a, v =>
    if a < b then (a, v) :: (b, w) :: m
    else if a = b then (a, v) :: m
    else (b, w) :: Memory.write m a v

/-- Writes consecutive cells upward from an address (R60, R243). -/
def Memory.writeAll : Memory → Nat → List Int → Memory
  | m, _, [] => m
  | m, a, v :: vs => Memory.writeAll (Memory.write m a v) (a + 1) vs

/-- `MemRead(a, 1)` for an address that has passed `okAddr` (R9, R50). -/
def State.memRead (s : State) (a : Int) : Cell := s.mem.read a.toNat

/-- `MemWrite(a, 1, v)` for an address that has passed `okAddr` (R9, R50). -/
def State.memWrite (s : State) (a : Int) (v : Int) : State := { s with mem := s.mem.write a.toNat v }

/-! ## Taking an exception, resuming, completing -/

/-- Taking an exception (R10, R216): the status takes the cause; every write already made stays made; nothing is saved
and nothing is vectored. -/
def State.raise (s : State) (k : Status) : State := { s with status := k }

/-- `last <- (op, v)` (R33, R128). -/
def State.record (s : State) (i : Instr) : State := { s with last := some i }

/-- A call of `step` or `run` turns `BudgetExceeded` back into `Running` (R204, R251, R253). -/
def State.resume (s : State) : State :=
  match s.status with
  | .budgetExceeded => { s with status := .running }
  | .running => s
  | .halted => s
  | .error _ => s
  | .fault _ => s

/-- An effect that raises: the step ends in the state with the cause (R127, R216). -/
def raiseOutcome (k : Status) (s : State) : Result := .next (s.raise k)

/-- Completion (R128): the status stays as it is and the instruction is recorded. -/
def complete (i : Instr) (s : State) : Result := .next (s.record i)

/-- The register write of instruction `i`, then completion. A value outside a finite width raises
`Fault(ValueRange)` and is not written (R129, R160, R213). -/
def finishWrite (i : Instr) (r : Reg) (v : Int) (s : State) : Result :=
  if s.cfg.fits v then complete i (s.setReg r v) else raiseOutcome (.fault (.valueRange v)) s

/-- The address test before an effect's one access (R51, R170, R171). -/
def withAddress (a : Int) (s : State) (access : Result) : Result :=
  if s.cfg.okAddr a then access else raiseOutcome (.fault (.badAddress a)) s

end Sys2Proof.Machine
end

