-- ==== Sys2Proof/Machine/Operands.lean ====
section
/-! DEFINITION. The operand forms (R82, R87 to R89, R172): a register read as a value, a literal, an absolute data
address, an absolute program position. Each is one whole word with no mode, extension, scaling or offset. -/

namespace Sys2Proof.Machine

/-- The value of a REG operand that is read: the register as it stands after the fetch, so IP reads as the address of the
next instruction (R26, R87). -/
def regOperand (r : Reg) (s : State) : Int := s.reg r

/-- The value of a LIT operand: the word itself (R88). -/
def litOperand (literal : Int) : Int := literal

/-- The effective address of an ADDR operand: the word itself, absolute (R88, R172). -/
def addrOperand (address : Int) : Int := address

/-- The target of a POS operand: the word itself, absolute (R88). -/
def posOperand (target : Int) : Int := target

end Sys2Proof.Machine
end

