-- ==== Sys2Proof/Machine/Flags.lean ====
section
/-! DEFINITION. The arithmetic of the machine. There are no flags, condition codes or predicate registers (R29): no
operation here leaves anything behind but its result. The whole ALU is one sum and one comparison (R161). -/

namespace Sys2Proof.Machine

/-- The sum of two values: exact, of mathematical integers (R158). -/
def addValues (x y : Int) : Int := x + y

/-- JILT's test: the strict signed order of the integers (R159). -/
def lessThan (v c : Int) : Bool := decide (v < c)

end Sys2Proof.Machine
end

