-- ==== Sys2Proof/Machine/Jump.lean ====
section
/-! DEFINITION. JILT (`44_jump.md`). -/

namespace Sys2Proof.Machine

/-- R190: `if x[reg] < literal then pc <- target`; the target is not checked when the jump is taken (R193). -/
def execJilt (reg : Reg) (literal target : Int) (s : State) : Result :=
  if lessThan (regOperand reg s) (litOperand literal) then
    finishWrite (.jilt reg literal target) .ip (posOperand target) s
  else complete (.jilt reg literal target) s

end Sys2Proof.Machine
end

