-- ==== Sys2Proof/Machine/MemoryOps.lean ====
section
/-! DEFINITION. MSET and MGET (`43_memory_ops.md`). -/

namespace Sys2Proof.Machine

/-- R170: `mem[address] <- x[reg]`, after the address test. No range fault: a register's value already fits (log 6). -/
def execMset (address : Int) (reg : Reg) (s : State) : Result :=
  withAddress (addrOperand address) s
    (complete (.mset address reg) (s.memWrite (addrOperand address) (regOperand reg s)))

/-- R171: `x[reg] <- mem[address]`, after the address test; an unset cell raises `Fault(UnsetLoad)` and writes nothing. -/
def execMget (address : Int) (reg : Reg) (s : State) : Result :=
  withAddress (addrOperand address) s
    (match s.memRead (addrOperand address) with
     | none => raiseOutcome (.fault (.unsetLoad (addrOperand address))) s
     | some t => finishWrite (.mget address reg) reg t s)

end Sys2Proof.Machine
end

