-- ==== Sys2Proof/Machine/NoopError.lean ====
section
/-! DEFINITION. NOOP and ERROR (`41_noop_error.md`). In every meaning the state given is the one after the fetch, with
IP already past the instruction (R26, R127). -/

namespace Sys2Proof.Machine

/-- R140: no effect; the instruction completes. -/
def execNoop (s : State) : Result := complete .noop s

/-- R141: what ERROR does is the parameter `ERROR_EXEC`: `Fault(ErrorOpcode)` by default, else NOOP's effect with
`last = (ERROR, [])`, else the report that its word is an unknown opcode (log 7). -/
def execError (s : State) : Result :=
  match s.cfg.errorExec with
  | .fault => raiseOutcome (.fault .errorOpcode) s
  | .noop => complete .error s
  | .unknown => raiseOutcome (.error (.unknownOpcode (s.cfg.opNum .error))) s

end Sys2Proof.Machine
end

