-- ==== Sys2Proof/Machine/RegisterOps.lean ====
section
/-! DEFINITION. RSET, RCPY, RADD (`42_register_ops.md`). Every right-hand side is read before the one write (R8). -/

namespace Sys2Proof.Machine

/-- R150: `x[reg] <- literal`. -/
def execRset (reg : Reg) (literal : Int) (s : State) : Result :=
  finishWrite (.rset reg literal) reg (litOperand literal) s

/-- R151: `x[dest] <- x[src]`. -/
def execRcpy (src dest : Reg) (s : State) : Result :=
  finishWrite (.rcpy src dest) dest (regOperand src s) s

/-- R152: `x[accum] <- x[accum] + x[addend]`. -/
def execRadd (accum addend : Reg) (s : State) : Result :=
  finishWrite (.radd accum addend) accum (addValues (regOperand accum s) (regOperand addend s)) s

end Sys2Proof.Machine
end

