-- ==== Sys2Proof/Machine/Dispatch.lean ====
section
/-! DEFINITION. The effect of a decoded instruction on the state after its fetch (R127): one arm per opcode. -/

namespace Sys2Proof.Machine

def exec (i : Instr) (s : State) : Host.Outcome State Fault Refusal :=
  match i with
  | .error => Sys2Proof.Machine.execError s
  | .noop => Sys2Proof.Machine.execNoop s
  | .rset reg literal => Sys2Proof.Machine.execRset reg literal s
  | .rcpy src dest => Sys2Proof.Machine.execRcpy src dest s
  | .radd accum addend => Sys2Proof.Machine.execRadd accum addend s
  | .mset address reg => Sys2Proof.Machine.execMset address reg s
  | .mget address reg => Sys2Proof.Machine.execMget address reg s
  | .jilt reg literal target => Sys2Proof.Machine.execJilt reg literal target s

end Sys2Proof.Machine
end

