-- ==== Sys2Proof/Machine/Fetch.lean ====
section
/-! DEFINITION. The part of the step common to every instruction (`40_step_cycle.md` R121 to R126): opcode fetch, halt,
opcode decode, argument fetch, arity mismatch, operand decode. Also where the host's bit-numbered word is placed. -/

namespace Sys2Proof.Machine

/-- What a phase of the fetch answers: it raised, and the step ends in that state; or it got something and goes on. -/
inductive Fetched (α : Type) where
  | raised (s : State)
  | got (a : α) (s : State)
deriving Repr

/-- Reads the cell at IP and then adds 1 to IP (R121, R124). An invalid address raises `Fault(BadAddress)` with no access
and IP unchanged (R51). The increment is a register write, so with a finite width it raises `Fault(ValueRange)` where it
does not fit, and is not made (R28, R129, R160; log 4). A finite `A` is tested on use only (R124; log 5). -/
def fetchWord (s : State) : Fetched Cell :=
  if s.cfg.okAddr s.ip then
    if s.cfg.fits (s.ip + 1) then .got (s.memRead s.ip) (s.withIp (s.ip + 1))
    else .raised (s.raise (.fault (.valueRange (s.ip + 1))))
  else .raised (s.raise (.fault (.badAddress s.ip)))

/-- Argument fetch (R124): `remaining` words of an opcode of arity `n`, of which `k` have been obtained. The first unset
one raises `Error(ArityMismatch(n, k))` with IP one past it (R125, D9). -/
def fetchArgs (n : Nat) : (remaining k : Nat) → State → Fetched (List Int)
  | 0, _, s => .got [] s
  | remaining + 1, k, s =>
    match fetchWord s with
    | .raised t => .raised t
    | .got none t => .raised (t.raise (.error (.arityMismatch n k)))
    | .got (some v) t =>
      match fetchArgs n remaining (k + 1) t with
      | .raised u => .raised u
      | .got vs u => .got (v :: vs) u

/-- The status that reports a decoding failure (R122, R123, R125, R126). -/
def decodeStatus : DecodeError → Status
  | .noWord => .halted
  | .unknownOpcode w => .error (.unknownOpcode w)
  | .arityMismatch expected actual => .error (.arityMismatch expected actual)
  | .badRegister v => .fault (.badRegister v)

/-- The whole common part: the decoded instruction with the state in which IP is past it (R26), or the state the step
raised in. -/
def fetchInstr (s : State) : Fetched Instr :=
  match fetchWord s with
  | .raised t => .raised t
  | .got none t => .raised (t.raise .halted)
  | .got (some w) t =>
    match t.cfg.opDec w with
    | none => .raised (t.raise (.error (.unknownOpcode w)))
    | some op =>
      match fetchArgs op.arity op.arity 0 t with
      | .raised u => .raised u
      | .got v u =>
        match u.cfg.decodeArgs op v with
        | .error e => .raised (u.raise (decodeStatus e))
        | .ok i => .got i u

/-- The state in which the next step runs the instruction given as `nbits` bits `w` (log 10): its cells stand at IP. Where
the session has ended it is running again, and an IP that is no valid address is moved to the default offset 0, since a
program comes to run by a load (log 8). -/
def placeWord (s : State) (nbits w : Nat) : State :=
  let at' := if s.cfg.okAddr s.ip then s.ip else 0
  { s with
    ip := at'
    mem := s.mem.writeAll at'.toNat (tableWords nbits w)
    status := if s.status.terminal then .running else s.status }

end Sys2Proof.Machine
end

