-- ==== Sys2Proof/Machine/Cycle.lean ====
section
/-! DEFINITION. The fetch-decode-execute step and the step-once driver (`40_step_cycle.md` R120 to R130;
`70_reset_and_hazards.md` R251). `Step.lean` only names it. -/

namespace Sys2Proof.Machine

/-- `step_core()` of R129: fetch and decode, then the effect. It is performed only in `Running` (R120). -/
def stepCore (s : State) : Result :=
  match fetchInstr s with
  | .raised t => .next t
  | .got i t => exec i t

/-- `step()` of R251: in a terminal status nothing happens; `BudgetExceeded` is resumed first. -/
def stepOnce (s : State) : Result :=
  if s.status.terminal then .next s else stepCore s.resume

end Sys2Proof.Machine
end

