-- ==== Sys2Proof/Machine/Step.lean ====
section
/-! DEFINITION. The machine's step, and the state whose next step runs a given instruction, under the names the host
reads. Their bodies stand in `Cycle.lean` and `Fetch.lean`. -/

namespace Sys2Proof.Machine

/-- One step of the machine: `step()` of R251. -/
def step (s : State) : Host.Outcome State Fault Refusal := stepOnce s

/-- The state whose very next step runs the instruction given as `nbits` bits `w` (log 10, log 8). -/
def State.withFetchWord (s : State) (nbits w : Nat) : State := placeWord s nbits w

end Sys2Proof.Machine
end

