-- ==== Sys2Proof/Machine/Disassembler.lean ====
section
/-! DEFINITION. The lookup tables by name and the disassembler (`30_encoding.md` R107, R108). -/

namespace Sys2Proof.Machine

/-- `mnemonicOf` (R90, R107). -/
def mnemonicOf : Opcode → Text
  | .error => "ERROR".toList
  | .noop => "NOOP".toList
  | .rset => "RSET".toList
  | .rcpy => "RCPY".toList
  | .radd => "RADD".toList
  | .mset => "MSET".toList
  | .mget => "MGET".toList
  | .jilt => "JILT".toList

/-- `opcodeOf`: exact, case-sensitive (R101, R107); `none` is "not found". -/
def opcodeOf (t : Text) : Option Opcode := Opcode.all.find? fun op => decide (mnemonicOf op = t)

/-- `nameOf` (R20, R107). -/
def nameOf : Reg → Text
  | .ip => "IP".toList
  | .r1 => "R1".toList
  | .r2 => "R2".toList
  | .r3 => "R3".toList

/-- `registerOf`: exact, case-sensitive (R102, R107); `none` is "not found". -/
def registerOf (t : Text) : Option Reg := Reg.all.find? fun r => decide (nameOf r = t)

/-- A number in decimal, without leading zeros. -/
def natText (n : Nat) : Text :=
  if n = 0 then ['0'] else ((Nat.digits 10 n).reverse).map fun d => Char.ofNat (48 + d)

/-- An integer in decimal with a leading `-` when negative (R108). -/
def intText : Int → Text
  | .ofNat n => natText n
  | .negSucc n => '-' :: natText (n + 1)

/-- The operands as printed, per schema kind: the register's name, else the number (R108). -/
def operandTexts : Instr → List Text
  | .error => []
  | .noop => []
  | .rset reg literal => [nameOf reg, intText literal]
  | .rcpy src dest => [nameOf src, nameOf dest]
  | .radd accum addend => [nameOf accum, nameOf addend]
  | .mset address reg => [intText address, nameOf reg]
  | .mget address reg => [intText address, nameOf reg]
  | .jilt reg literal target => [nameOf reg, intText literal, intText target]

/-- The printed line: mnemonic and arguments joined by single spaces (R108, D21). -/
def disassemble (i : Instr) : Text := [' '].intercalate (mnemonicOf i.opcode :: operandTexts i)

/-- The disassembler on words: the placeholder for an opcode value it does not recognise (R108). DESIGN CHOICE, log 16: the
placeholder too for argument words that do not fit the opcode, be they too few, too many, or a bad REG word. -/
def disassembleWords (c : Config) (w : Int) (args : List Int) : Text :=
  match decode c (w :: args) with
  | .ok (i, []) => disassemble i
  | .ok (_, _ :: _) => Config.disasmPlaceholder
  | .error _ => Config.disasmPlaceholder

end Sys2Proof.Machine
end

