-- ==== Sys2Proof/Machine/Observe.lean ====
section
/-! DEFINITION. What the outside sees (`10_state.md` R40 to R42; `60_exceptions.md` R217): `snapshot`, `dump`, and what a
step hands to the observer and to the error sink. None of it is state (log 13). -/

namespace Sys2Proof.Machine

/-- What `snapshot()` returns (R40). -/
structure Snapshot where
  ip : Int
  r1 : Int
  r2 : Int
  r3 : Int
  /-- The disassembly of `last`, or empty. -/
  lastInstruction : Text
deriving DecidableEq, Repr

/-- `snapshot()` (R40): it changes no state. -/
def State.snapshot (s : State) : Snapshot :=
  { ip := s.ip, r1 := s.r1, r2 := s.r2, r3 := s.r3,
    lastInstruction := match s.last with
      | none => []
      | some i => disassemble i }

/-- One entry of `dump()` (R41). -/
structure DumpEntry where
  address : Nat
  rawValue : Int
  /-- The mnemonic of the opcode whose number is `rawValue`, or empty. -/
  opcodeName : Text
deriving DecidableEq, Repr

/-- The name `dump` attaches to a value (R41). -/
def opcodeNameOrEmpty (c : Config) (v : Int) : Text :=
  match c.opDec v with
  | some op => mnemonicOf op
  | none => []

/-- `dump()` (R41): one entry for every set cell, in increasing address order (D25). -/
def State.dump (s : State) : List DumpEntry :=
  s.mem.map fun e => { address := e.1, rawValue := e.2, opcodeName := opcodeNameOrEmpty s.cfg e.2 }

/-- What goes to the error sink (R217): the values of a report; its text is not specified. -/
inductive Report where
  | parseError (token : Text)      -- an unrecognised mnemonic, at assembly (R101, R214)
  | error (e : ErrorCause)
  | fault (f : FaultCause)
deriving DecidableEq, Repr

/-- What a performed step that ends in `t` hands to the observer: the snapshot where it completed, nothing where it
raised (R42, R128). -/
def observed (t : State) : List Snapshot :=
  match t.status with
  | .running => [t.snapshot]
  | .halted => []
  | .error _ => []
  | .budgetExceeded => []
  | .fault _ => []

/-- What a performed step that ends in `t` hands to the error sink: `Error` and `Fault` causes; `Halted` is not reported
(R217). -/
def reported (t : State) : List Report :=
  match t.status with
  | .running => []
  | .halted => []
  | .error e => [.error e]
  | .budgetExceeded => []
  | .fault f => [.fault f]

end Sys2Proof.Machine
end

