-- ==== Sys2Proof/Machine/Assembler.lean ====
section
/-! DEFINITION. The assembler's text format (`30_encoding.md` R98 to R106; D20). -/

namespace Sys2Proof.Machine

/-- Whitespace and commas separate tokens (R100, D20; log 15). -/
def isSeparator (ch : Char) : Bool := ch.isWhitespace || ch == ','

/-- The tokens of a line: its maximal runs of characters that are no separators (R100). -/
def tokens (line : Text) : List Text := (line.splitOnP isSeparator).filter fun t => !t.isEmpty

/-- The value of a decimal digit. -/
def digitValue (ch : Char) : Option Nat :=
  if 48 ≤ ch.toNat ∧ ch.toNat ≤ 57 then some (ch.toNat - 48) else none

/-- Reads decimal digits, most significant first, onto what has been read. -/
def parseDigits : Nat → Text → Option Nat
  | n, [] => some n
  | n, ch :: rest =>
    match digitValue ch with
    | none => none
    | some d => parseDigits (10 * n + d) rest

/-- One or more decimal digits. -/
def parseNat (t : Text) : Option Nat := if t.isEmpty then none else parseDigits 0 t

/-- A numeric token: an optional `-` followed by decimal digits (R102). -/
def parseInt : Text → Option Int
  | [] => none
  | ch :: rest =>
    if ch = '-' then (parseNat rest).map fun n => -(n : Int)
    else (parseNat (ch :: rest)).map fun n => (n : Int)

/-- One argument token at a position of the given kind (R102): no fallback between the kinds. -/
def parseArg (c : Config) (k : Kind) (t : Text) : Option Int :=
  match k with
  | .reg => (registerOf t).map c.regNum
  | .lit => parseInt t
  | .addr => parseInt t
  | .pos => parseInt t

/-- The argument tokens against the schema; `none` for a wrong count or a malformed token (R104). -/
def parseArgs (c : Config) : List Kind → List Text → Option (List Int)
  | [], [] => some []
  | k :: ks, t :: ts =>
    match parseArg c k t, parseArgs c ks ts with
    | some v, some vs => some (v :: vs)
    | _, _ => none
  | _, _ => none

/-- What a text assembles to: the image and the parse errors reported (R103, R105). -/
structure Assembled where
  image : List Int
  parseErrors : List Report
deriving DecidableEq, Repr

/-- One line: nothing for a blank one (R99); the ERROR word and a report for an unknown mnemonic (R101); refused where a
known mnemonic has malformed arguments (R104). -/
def assembleLine (c : Config) (line : Text) : Except Refusal Assembled :=
  match tokens line with
  | [] => .ok { image := [], parseErrors := [] }
  | first :: rest =>
    match opcodeOf first with
    | none => .ok { image := [c.opNum .error], parseErrors := [.parseError first] }
    | some op =>
      match parseArgs c op.kinds rest with
      | none => .error (.malformedLine line)
      | some v => .ok { image := c.opNum op :: v, parseErrors := [] }

/-- The lines in source order, concatenated (R84, R103). -/
def assembleLines (c : Config) : List Text → Except Refusal Assembled
  | [] => .ok { image := [], parseErrors := [] }
  | line :: lines =>
    match assembleLine c line with
    | .error e => .error e
    | .ok a =>
      match assembleLines c lines with
      | .error e => .error e
      | .ok b => .ok { image := a.image ++ b.image, parseErrors := a.parseErrors ++ b.parseErrors }

/-- The assembler (R98): newline-separated lines. -/
def assemble (c : Config) (text : Text) : Except Refusal Assembled := assembleLines c (text.splitOn '\n')

end Sys2Proof.Machine
end

