-- ==== Sys2Proof/Machine/Load.lean ====
section
/-! DEFINITION. `load`, this machine's reset (`70_reset_and_hazards.md` R240 to R250). -/

namespace Sys2Proof.Machine

/-- `DEFAULT_OFFSET` (R5). -/
def defaultOffset : Int := 0

/-- The image fits below `2^A` where `A` is finite (R249). -/
def imageFits (c : Config) (offset : Int) (length : Nat) : Bool :=
  match c.addrWidth with
  | none => true
  | some w => decide (offset + (length : Int) ≤ (2 : Int) ^ w)

/-- What a load leaves (R241 to R244, R246): the registers and the status reset, the image overlaid on the memory `m0`. -/
def loadedState (c : Config) (m0 : Memory) (image : List Int) (offset : Int) : State :=
  { cfg := c, ip := offset, r1 := 0, r2 := 0, r3 := 0, mem := m0.writeAll offset.toNat image,
    status := .running, last := none }

/-- `load(image, offset)` over a memory `m0`. Refused outside its contract: a negative offset or an image past `2^A`
(R249), a word outside `W` (R160), an offset no register can hold (log 11). -/
def loadOver (c : Config) (m0 : Memory) (image : List Int) (offset : Int) : Result :=
  if offset < 0 then .refused (.badOffset offset)
  else if c.fits offset = false then .refused (.badOffset offset)
  else if imageFits c offset image.length = false then .refused (.imageTooLong offset image.length)
  else
    match image.find? fun v => !c.fits v with
    | some v => .refused (.wordOutOfRange v)
    | none => .next (loadedState c m0 image offset)

/-- The first load of a session, over the all-unset power-on memory (R245, D13). -/
def firstLoad (c : Config) (image : List Int) (offset : Int) : Result := loadOver c [] image offset

/-- A load into a session, in any status, over the memory as it stands (R240, R243). -/
def State.load (s : State) (image : List Int) (offset : Int) : Result := loadOver s.cfg s.mem image offset

end Sys2Proof.Machine
end

