-- ==== Sys2Proof/Machine/Run.lean ====
section
/-! DEFINITION. `run` (`70_reset_and_hazards.md` R252 to R255; `60_exceptions.md` R222). -/

namespace Sys2Proof.Machine

/-- What a call of `run` did: the state it leaves, and the state after each step it invoked, oldest first. The number of
ticks is the length of that list and lives only in the call (R34, R222, R254). -/
structure RunRecord where
  final   : State
  invoked : List State
deriving DecidableEq, Repr

/-- The ticks a run counted (R254). -/
def RunRecord.ticks (r : RunRecord) : Nat := r.invoked.length

/-- The loop of R253 with `n` ticks left: it stops when the status leaves `Running`. -/
def runTicks : Nat → State → Host.Outcome RunRecord Fault Refusal
  | 0, s => .next { final := s, invoked := [] }
  | n + 1, s =>
    if s.status = .running then
      match stepCore s with
      | .next t =>
        match runTicks n t with
        | .next r => .next { final := r.final, invoked := t :: r.invoked }
        | .fault f => .fault f
        | .refused r => .refused r
      | .fault f => .fault f
      | .refused r => .refused r
    else .next { final := s, invoked := [] }

/-- The last line of R253: a run whose budget ended it leaves `BudgetExceeded`. -/
def State.exhaust (s : State) : State := if s.status = .running then { s with status := .budgetExceeded } else s

/-- `run(N)` (R253): a negative budget is treated as 0. -/
def run (budget : Int) (s : State) : Host.Outcome RunRecord Fault Refusal :=
  match runTicks budget.toNat s.resume with
  | .next r => .next { final := r.final.exhaust, invoked := r.invoked }
  | .fault f => .fault f
  | .refused r => .refused r

/-- The budget in force when the caller may give none (R252, D12). -/
def budgetOr (s : State) (budget : Option Int) : Int := budget.getD (s.cfg.tickBudget : Int)

end Sys2Proof.Machine
end

