-- ==== Sys2Proof/Machine/HostInterface.lean ====
section
/-! DEFINITION. The host interface as one function (`70_reset_and_hazards.md` R245, R256, R258). A session that has not
been loaded is `none` (log 14). -/

namespace Sys2Proof.Machine

/-- The five operations of the host, `load` in its two forms; the host has no other move (R256, D23). -/
inductive HostOp where
  | load (image : List Int) (offset : Option Int)
  | loadText (text : Text) (offset : Option Int)
  | step
  | run (budget : Option Int)
  | snapshot
  | dump
deriving DecidableEq, Repr

/-- What an operation returns (R258). -/
inductive Answer where
  | nothing
  | status (k : Status)
  | snapshot (v : Snapshot)
  | dump (v : List DumpEntry)
deriving DecidableEq, Repr

/-- One operation's outcome: the session after it, what it returns, and what it emits (R258). -/
structure Reply where
  session  : State
  answer   : Answer
  observer : List Snapshot
  sink     : List Report
  renderer : List (Snapshot × List DumpEntry)
deriving DecidableEq, Repr

/-- What the renderer is given of a session `t`, after a load and after every step (R42, R244; log 13). -/
def rendered (t : State) : Snapshot × List DumpEntry := (t.snapshot, t.dump)

/-- The reply of a load that left `t` (R244, R258). -/
def loadReply (sink : List Report) (t : State) : Reply :=
  { session := t, answer := .nothing, observer := [], sink := sink, renderer := [rendered t] }

/-- A load on the host's side, over the parameters and the memory there are (R240, R258). -/
def hostLoad (c : Config) (m0 : Memory) (sink : List Report) (image : List Int) (offset : Option Int) :
    Host.Outcome Reply Fault Refusal :=
  match loadOver c m0 image (offset.getD defaultOffset) with
  | .next t => .next (loadReply sink t)
  | .fault f => .fault f
  | .refused r => .refused r

/-- A load of text: assemble, then load the image (R240, R250); a malformed line is refused (R104). -/
def hostLoadText (c : Config) (m0 : Memory) (text : Text) (offset : Option Int) :
    Host.Outcome Reply Fault Refusal :=
  match assemble c text with
  | .ok a => hostLoad c m0 a.parseErrors a.image offset
  | .error r => .refused r

/-- `step` on the host's side: emissions only where a step was performed (R42, R120, R217). -/
def hostStep (s : State) : Host.Outcome Reply Fault Refusal :=
  match Sys2Proof.Machine.step s with
  | .next t => .next
      { session := t, answer := .status t.status,
        observer := if s.status.terminal then [] else observed t,
        sink := if s.status.terminal then [] else reported t,
        renderer := if s.status.terminal then [] else [rendered t] }
  | .fault f => .fault f
  | .refused r => .refused r

/-- `run` on the host's side: the emissions of `step`, once per step invoked (R258). -/
def hostRun (budget : Option Int) (s : State) : Host.Outcome Reply Fault Refusal :=
  match Sys2Proof.Machine.run (budgetOr s budget) s with
  | .next r => .next
      { session := r.final, answer := .status r.final.status,
        observer := r.invoked.flatMap observed,
        sink := r.invoked.flatMap reported,
        renderer := r.invoked.map rendered }
  | .fault f => .fault f
  | .refused r => .refused r

/-- One operation of the host on a session, which it may have or not yet have (R245). The first load takes the
parameters `c` and the all-unset memory of power-on (D13); a later one keeps the session's own. -/
def hostDo (c : Config) (session : Option State) (op : HostOp) : Host.Outcome Reply Fault Refusal :=
  match op, session with
  | .load image offset, none => hostLoad c [] [] image offset
  | .load image offset, some s => hostLoad s.cfg s.mem [] image offset
  | .loadText text offset, none => hostLoadText c [] text offset
  | .loadText text offset, some s => hostLoadText s.cfg s.mem text offset
  | .step, some s => hostStep s
  | .run budget, some s => hostRun budget s
  | .snapshot, some s => .next
      { session := s, answer := .snapshot s.snapshot, observer := [], sink := [], renderer := [] }
  | .dump, some s => .next
      { session := s, answer := .dump s.dump, observer := [], sink := [], renderer := [] }
  | .step, none => .refused .notLoaded
  | .run _, none => .refused .notLoaded
  | .snapshot, none => .refused .notLoaded
  | .dump, none => .refused .notLoaded

end Sys2Proof.Machine
end

