-- ==== Sys2Proof/Safety.lean ====
section
/-! DEFINITION. What claims call a sound state, an explained status and a successful end. None of it is read by the
machine. -/

namespace Sys2Proof

/-- The register an instruction writes through its operands, or IP for JILT (R22). -/
def Instr.written : Instr → Option Reg
  | .error => none
  | .noop => none
  | .rset reg _ => some reg
  | .rcpy _ dest => some dest
  | .radd accum _ => some accum
  | .mset _ _ => none
  | .mget _ reg => some reg
  | .jilt _ _ _ => some .ip

end Sys2Proof

namespace Sys2Proof.Machine

/-- A program has ended successfully exactly when the status is `Halted` (R203, R257). -/
def State.succeeded (s : State) : Bool := decide (s.status = .halted)

/-- The cells from address `a` upward hold the given words (R80: word `k` of an instruction is at `a + k`). -/
def State.holds (s : State) (a : Int) (ws : List Int) : Prop :=
  ∀ (k : Nat) (v : Int), ws[k]? = some v → s.memRead (a + k) = some v

/-- The `n` words from IP upward stand at valid addresses, and IP can be advanced past each of them. With unbounded
widths this says `0 <= IP` (R28, R51, R121, R124). -/
def State.canFetch (s : State) (n : Nat) : Prop :=
  ∀ k : Nat, k < n → s.cfg.okAddr (s.ip + k) = true ∧ s.cfg.fits (s.ip + k + 1) = true

/-- Every cell of memory reads in `t` as it reads in `s`. -/
def State.KeepsMemory (s t : State) : Prop := ∀ a, t.mem.read a = s.mem.read a

/-- The common part of a completed instruction (R128): every register but the one it writes is as it was, the status is
as it was, and the instruction is recorded. -/
structure Completed (i : Instr) (s t : State) : Prop where
  registers : ∀ q, Instr.written i ≠ some q → t.reg q = s.reg q
  status    : t.status = s.status
  last      : t.last = some i
  config    : t.cfg = s.cfg

/-- Every register and every set cell holds a value of the width, every set cell has a valid address, memory is in its
canonical form, the parameters meet their constraints, and the recorded instruction is one that could stand in memory
(R6, R20, R23, R35, R51, R160). -/
structure State.Sound (s : State) : Prop where
  config    : s.cfg.wellFormed = true
  canonical : Memory.wf s.mem
  registers : ∀ r, s.cfg.fits (s.reg r) = true
  cells     : ∀ a v, s.mem.read a = some v → s.cfg.fits v = true
  addresses : ∀ a v, s.mem.read a = some v → s.cfg.okAddr a = true
  recorded  : ∀ i, s.last = some i → i.wellFormed s.cfg = true

/-- The status tells the truth about the memory and IP it was raised over (R122 to R126, R141, R206 to R213): which cell
was unset, which word was bad, and where IP stands relative to it. -/
def State.StatusExplained (s : State) : Prop :=
  match s.status with
  | .running => True
  | .budgetExceeded => True
  | .halted => s.cfg.okAddr (s.ip - 1) = true ∧ s.memRead (s.ip - 1) = none
  | .error (.unknownOpcode w) =>
    s.cfg.okAddr (s.ip - 1) = true ∧ s.memRead (s.ip - 1) = some w ∧
      (s.cfg.opDec w = none ∨ s.cfg.opDec w = some .error ∧ s.cfg.errorExec = .unknown)
  | .error (.arityMismatch n k) =>
    k < n ∧ s.cfg.okAddr (s.ip - 1) = true ∧ s.memRead (s.ip - 1) = none ∧
      ∃ op : Opcode, op.arity = n ∧ s.cfg.okAddr (s.ip - 2 - k) = true ∧ s.memRead (s.ip - 2 - k) = some (s.cfg.opNum op)
  | .fault .errorOpcode =>
    s.cfg.errorExec = .fault ∧ s.cfg.okAddr (s.ip - 1) = true ∧ s.memRead (s.ip - 1) = some (s.cfg.opNum .error)
  | .fault (.badRegister v) =>
    s.cfg.regDec v = none ∧
      ∃ (op : Opcode) (k : Nat), op.kinds[k]? = some .reg ∧ s.cfg.okAddr (s.ip - op.arity - 1) = true ∧
        s.memRead (s.ip - op.arity - 1) = some (s.cfg.opNum op) ∧ s.memRead (s.ip - op.arity + k) = some v
  | .fault (.badAddress a) => s.cfg.okAddr a = false
  | .fault (.unsetLoad a) => s.cfg.okAddr a = true ∧ s.memRead a = none
  | .fault (.valueRange v) => s.cfg.fits v = false

end Sys2Proof.Machine
end

