-- ==== Sys2Proof/Certificates/Slice0/Obligations.lean ====
section
/-! DEFINITION. The statements for the provers. Each docstring names the rules of the spec it rests on, or the log entry
where it rests on a choice of the model. In statements about `exec` the state given is the one after the fetch (R26). -/

open Sys2Proof Sys2Proof.Machine

/-! ## Decoding, encoding, text -/

/-- R91: the opcode decoder answers an opcode for exactly its own number, `none` for every other word, and `none` for
every negative word, under any numbering that meets R6. -/
def Obligations.OpcodeDecoderIsWordEquality : Prop :=
  ∀ c : Config, c.wellFormed = true → ∀ w : Int,
    (∀ op, c.opDec w = some op ↔ c.opNum op = w) ∧
    ((∀ op, c.opNum op ≠ w) → c.opDec w = none) ∧
    (w < 0 → c.opDec w = none)

/-- R87, R95: a REG word 0, 1, 2, 3 names IP, R1, R2, R3 under the default numbering, every other integer names none;
under every numbering that meets R6 the words that name a register are the same four. The default numbers are the
spec's decision D2. -/
def Obligations.RegisterWordsAreZeroToThree : Prop :=
  (∀ v : Int, Config.default.regDec v =
    if v = 0 then some .ip else if v = 1 then some .r1 else if v = 2 then some .r2
    else if v = 3 then some .r3 else none) ∧
  ∀ c : Config, c.wellFormed = true → ∀ v : Int, (c.regDec v = none ↔ v < 0 ∨ 3 < v)

/-- R80, R83, R90: words written out from the encoding tables decode to the instructions they stand for. The numbers
are the spec's decisions D1, D2. -/
def Obligations.SampleWordsDecode : Prop :=
  decode Config.default [0] = .ok (.error, []) ∧
  decode Config.default [1, 1] = .ok (.noop, [1]) ∧
  decode Config.default [2, 1, 5] = .ok (.rset .r1 5, []) ∧
  decode Config.default [3, 0, 3] = .ok (.rcpy .ip .r3, []) ∧
  decode Config.default [4, 1, 2] = .ok (.radd .r1 .r2, []) ∧
  decode Config.default [5, 100, 1] = .ok (.mset 100 .r1, []) ∧
  decode Config.default [6, 100, 2] = .ok (.mget 100 .r2, []) ∧
  decode Config.default [7, 2, 5, 0] = .ok (.jilt .r2 5 0, [])

/-- R80, R83, R87, R88, R91: decoding the words of any instruction gives it back, with every register and every
integer as an operand, whatever words follow, under any numbering that meets R6. -/
def Obligations.DecodeOfEncodeIsIdentity : Prop :=
  ∀ c : Config, c.wellFormed = true → ∀ (i : Instr) (rest : List Int),
    decode c (encode c i ++ rest) = .ok (i, rest)

/-- R80, R86, R89: a list of words that decodes begins with exactly the words of the instruction read: no two lists of
words stand for one instruction. It needs no constraint on the numbering. -/
def Obligations.EncodeOfDecodeIsIdentity : Prop :=
  ∀ (c : Config) (ws : List Int) (i : Instr) (rest : List Int),
    decode c ws = .ok (i, rest) → ws = encode c i ++ rest

/-- R108 with R102, R103: the disassembled line assembles, without a parse error, to the words of the instruction. The
form of the line is the spec's decisions D20, D21. -/
def Obligations.DisassemblyReassembles : Prop :=
  ∀ (c : Config) (i : Instr),
    assemble c (disassemble i) = .ok { image := encode c i, parseErrors := [] }

/-- R109: disassembling the words of an instruction prints its mnemonic and, per schema kind, the register's name or
the number. The single spaces are the spec's decision D21. -/
def Obligations.DisassemblyOfEncodingNamesMnemonicAndArguments : Prop :=
  ∀ c : Config, c.wellFormed = true → ∀ i : Instr,
    disassembleWords c (c.opNum i.opcode) (encodeArgs c i) =
      [' '].intercalate (mnemonicOf i.opcode :: operandTexts i)

/-- R101, R105: a line whose first token is no mnemonic emits exactly the ERROR word and one parse error; the source's
example text gives the image 0, 1 and one report. What the report carries is log 15. -/
def Obligations.UnknownMnemonicEmitsErrorWord : Prop :=
  (∀ (c : Config) (line first : Text) (others : List Text),
    tokens line = first :: others → opcodeOf first = none →
    assembleLine c line = .ok { image := [c.opNum .error], parseErrors := [.parseError first] }) ∧
  assemble Config.default "FOO 1 2\nNOOP".toList =
    .ok { image := [0, 1], parseErrors := [.parseError "FOO".toList] }

/-- R104: a text with a line of a known mnemonic and malformed or miscounted arguments defines no image. The refusal
is the spec's decision D20; which line it names is log 15. -/
def Obligations.MalformedLineRefusesText : Prop :=
  ∀ (c : Config) (text line first : Text) (others : List Text) (op : Opcode),
    line ∈ text.splitOn '\n' → tokens line = first :: others → opcodeOf first = some op →
    parseArgs c op.kinds others = none →
    ∃ bad, bad ∈ text.splitOn '\n' ∧ assemble c text = .error (.malformedLine bad)

/-! ## Load -/

/-- R241, R242, R243, R244, R246, R60: a load inside its contract answers, and leaves IP at the offset, R1, R2, R3 at
0, the image at `[O, O+L)`, every other cell as it was, Running and no last instruction. -/
def Obligations.LoadLeavesResetState : Prop :=
  ∀ (c : Config) (m0 : Memory) (image : List Int) (offset : Int),
    0 ≤ offset → c.fits offset = true → imageFits c offset image.length = true →
    (∀ v ∈ image, c.fits v = true) →
    ∃ t, loadOver c m0 image offset = .next t ∧
      t.ip = offset ∧ t.r1 = 0 ∧ t.r2 = 0 ∧ t.r3 = 0 ∧ t.status = .running ∧ t.last = none ∧ t.cfg = c ∧
      ∀ a : Nat, t.mem.read a =
        if offset.toNat ≤ a ∧ a < offset.toNat + image.length then image[a - offset.toNat]? else m0.read a

/-- R249, R160: a load with a negative offset, with an image past `2^A`, or with a word outside the width is refused.
The refusals are the spec's decisions D26, D3. -/
def Obligations.LoadOutsideContractIsRefused : Prop :=
  ∀ (c : Config) (m0 : Memory) (image : List Int) (offset : Int),
    offset < 0 ∨ imageFits c offset image.length = false ∨ (∃ v ∈ image, c.fits v = false) →
    ∃ r, loadOver c m0 image offset = .refused r

/-- R218, R241, R247: what a load leaves depends on nothing of the old session but its memory and its parameters. That
the parameters stay is log 1. -/
def Obligations.LoadForgetsTheOldProcessor : Prop :=
  ∀ (s t : State) (image : List Int) (offset : Int),
    s.mem = t.mem → s.cfg = t.cfg → s.load image offset = t.load image offset

/-- R43, R245, R249 and log 8: the model's reset state is the first load of the empty image at the default offset. -/
def Obligations.ResetIsTheEmptyFirstLoad : Prop :=
  firstLoad Config.default [] defaultOffset = .next State.reset ∧
  State.reset.ip = 0 ∧ State.reset.r1 = 0 ∧ State.reset.r2 = 0 ∧ State.reset.r3 = 0 ∧
  State.reset.status = .running ∧ State.reset.last = none ∧ ∀ a, State.reset.mem.read a = none

/-- R245: before the first load `step`, `run`, `snapshot` and `dump` are refused. The form of the refusal is log 14. -/
def Obligations.BeforeTheFirstLoadTheHostIsRefused : Prop :=
  ∀ (c : Config) (op : HostOp),
    op = .step ∨ (∃ n, op = .run n) ∨ op = .snapshot ∨ op = .dump →
    hostDo c none op = .refused .notLoaded

/-! ## The step: fetch, decode, exceptions -/

/-- R127 with R120, R121, R124, R126, R251: when the words at IP decode to `i`, the step is the effect of `i` on the
state whose IP is past the instruction and whose status is Running. -/
def Obligations.StepRunsTheDecodedInstruction : Prop :=
  ∀ (s : State) (i : Instr) (ws : List Int),
    s.status.terminal = false → decode s.cfg ws = .ok (i, []) → s.holds s.ip ws → s.canFetch ws.length →
    step s = exec i { s with status := .running, ip := s.ip + ws.length }

/-- R130: the step is total: in every state it answers a next state. -/
def Obligations.StepAlwaysAnswersANextState : Prop :=
  ∀ s : State, ∃ t, step s = .next t

/-- R202, R219: in a terminal status `step` and `run` change nothing, and `run` invokes no step. -/
def Obligations.TerminalStatusIsSticky : Prop :=
  ∀ s : State, s.status.terminal = true →
    step s = .next s ∧ ∀ n : Int, run n s = .next { final := s, invoked := [] }

/-- R204, R251, R253: `step` and `run` go on from `BudgetExceeded` as from `Running`. Resumable is the spec's decision
D10. -/
def Obligations.BudgetExceededResumes : Prop :=
  ∀ s : State,
    step { s with status := .budgetExceeded } = step { s with status := .running } ∧
    ∀ n : Int, run n { s with status := .budgetExceeded } = run n { s with status := .running }

/-- R121, R124, R51, R211, R215 items 1 and 4: a fetch at an invalid address faults with no access: on the opcode fetch with
IP unchanged, on the fetch of argument word `k`, all before it being set, with IP at that word's address. The fault is the
spec's decisions D5, D4. -/
def Obligations.FetchAtInvalidAddressFaults : Prop :=
  ∀ s : State, s.status.terminal = false →
    (s.cfg.okAddr s.ip = false → step s = .next { s with status := .fault (.badAddress s.ip) }) ∧
    ∀ (op : Opcode) (k : Nat), s.cfg.wellFormed = true → s.memRead s.ip = some (s.cfg.opNum op) → k < op.arity →
      s.canFetch (k + 1) → (∀ j : Nat, j < k → s.memRead (s.ip + 1 + j) ≠ none) →
      s.cfg.okAddr (s.ip + 1 + k) = false →
      step s = .next { s with status := .fault (.badAddress (s.ip + 1 + k)), ip := s.ip + 1 + k }

/-- R122: an unset opcode word halts the core, with IP one past it and nothing else changed; a set one, 0 among them,
does not halt it. -/
def Obligations.UnsetOpcodeWordHalts : Prop :=
  ∀ s : State, s.status.terminal = false → s.canFetch 1 →
    (s.memRead s.ip = none → step s = .next { s with status := .halted, ip := s.ip + 1 }) ∧
    ∀ w t, s.memRead s.ip = some w → step s = .next t → t.status ≠ .halted

/-- R123, R207, R93: an opcode word that is no opcode's number stops the core with that word, IP one past it, nothing
else changed, whatever stands in the cells after it. -/
def Obligations.UnknownOpcodeStops : Prop :=
  ∀ (s : State) (w : Int), s.status.terminal = false → s.canFetch 1 → s.memRead s.ip = some w →
    (∀ op, s.cfg.opNum op ≠ w) →
    step s = .next { s with status := .error (.unknownOpcode w), ip := s.ip + 1 }

/-- R125, R208: the first unset argument word `k` of an opcode of arity `n` stops the core with `n` and `k`, IP one
past that word, nothing else changed. Where IP stands is the spec's decision D9. -/
def Obligations.UnsetArgumentWordStops : Prop :=
  ∀ (s : State) (op : Opcode) (k : Nat), s.status.terminal = false → s.cfg.wellFormed = true →
    s.memRead s.ip = some (s.cfg.opNum op) → k < op.arity → s.canFetch (k + 2) →
    (∀ j : Nat, j < k → s.memRead (s.ip + 1 + j) ≠ none) → s.memRead (s.ip + 1 + k) = none →
    step s = .next { s with status := .error (.arityMismatch op.arity k), ip := s.ip + k + 2 }

/-- R126, R95, R210, R215 item 5: with all argument words present, the lowest REG word that is not 0, 1, 2 or 3 faults
before any effect, with IP at the next instruction. The fault and its order are the spec's decisions D6, D27. -/
def Obligations.BadRegisterWordFaults : Prop :=
  ∀ (s : State) (op : Opcode) (v : List Int) (k : Nat) (w : Int),
    s.status.terminal = false → s.cfg.wellFormed = true →
    v.length = op.arity → s.holds s.ip (s.cfg.opNum op :: v) → s.canFetch (1 + op.arity) →
    op.kinds[k]? = some .reg → v[k]? = some w → (w < 0 ∨ 3 < w) →
    (∀ (j : Nat) (u : Int), j < k → op.kinds[j]? = some .reg → v[j]? = some u → 0 ≤ u ∧ u ≤ 3) →
    step s = .next { s with status := .fault (.badRegister w), ip := s.ip + 1 + op.arity }

/-- R28, R121, R124, R129, R160, R213 and the order of log 4: with a finite width, a fetch increment that does not fit
faults and is not made: the one past the opcode word, and the one past argument word `k`, all before it being set. In
both, whatever the cell at IP or word `k` is. The fault is the spec's decision D3. -/
def Obligations.FetchIncrementOutOfRangeFaults : Prop :=
  ∀ s : State, s.status.terminal = false →
    (s.cfg.okAddr s.ip = true → s.cfg.fits (s.ip + 1) = false →
      step s = .next { s with status := .fault (.valueRange (s.ip + 1)) }) ∧
    ∀ (op : Opcode) (k : Nat), s.cfg.wellFormed = true → s.memRead s.ip = some (s.cfg.opNum op) → k < op.arity →
      s.canFetch (k + 1) → (∀ j : Nat, j < k → s.memRead (s.ip + 1 + j) ≠ none) →
      s.cfg.okAddr (s.ip + 1 + k) = true → s.cfg.fits (s.ip + 2 + k) = false →
      step s = .next { s with status := .fault (.valueRange (s.ip + 2 + k)), ip := s.ip + 1 + k }

/-! ## The eight instructions -/

/-- R140: NOOP completes and changes nothing but the record. -/
def Obligations.NoopCompletes : Prop :=
  ∀ s : State, exec .noop s = .next { s with last := some .noop }

/-- R141, R209: with `ERROR_EXEC = fault`, the spec's decision D8, ERROR raises `Fault(ErrorOpcode)` and changes
nothing else. -/
def Obligations.ErrorRaisesFault : Prop :=
  ∀ s : State, s.cfg.errorExec = .fault →
    exec .error s = .next { s with status := .fault .errorOpcode }

/-- R141 and log 7: the two other values of `ERROR_EXEC`. -/
def Obligations.ErrorUnderItsOtherParameters : Prop :=
  ∀ s : State,
    (s.cfg.errorExec = .noop → exec .error s = .next { s with last := some .error }) ∧
    (s.cfg.errorExec = .unknown →
      exec .error s = .next { s with status := .error (.unknownOpcode (s.cfg.opNum .error)) })

/-- R150: RSET sets its register, IP among them, to the literal and changes nothing else. -/
def Obligations.RsetSetsItsRegister : Prop :=
  ∀ (s : State) (reg : Reg) (literal : Int), s.cfg.fits literal = true →
    ∃ t, exec (.rset reg literal) s = .next t ∧ t.reg reg = literal ∧
      Completed (.rset reg literal) s t ∧ s.KeepsMemory t

/-- R151: RCPY gives its destination the value of its source, read before the write; the premise holds in every sound
state. -/
def Obligations.RcpyCopiesSourceToDestination : Prop :=
  ∀ (s : State) (src dest : Reg), s.cfg.fits (s.reg src) = true →
    ∃ t, exec (.rcpy src dest) s = .next t ∧ t.reg dest = s.reg src ∧
      Completed (.rcpy src dest) s t ∧ s.KeepsMemory t

/-- R152, R158: RADD gives its first register the exact integer sum of the two, both read before the write. -/
def Obligations.RaddAddsExactly : Prop :=
  ∀ (s : State) (accum addend : Reg), s.cfg.fits (s.reg accum + s.reg addend) = true →
    ∃ t, exec (.radd accum addend) s = .next t ∧ t.reg accum = s.reg accum + s.reg addend ∧
      Completed (.radd accum addend) s t ∧ s.KeepsMemory t

/-- R170, R50, R36: MSET sets the cell at its address, be it unset before, to the register's value; every register and
every other cell is as it was. -/
def Obligations.MsetStoresItsRegister : Prop :=
  ∀ (s : State) (address : Int) (reg : Reg), s.cfg.okAddr address = true →
    ∃ t, exec (.mset address reg) s = .next t ∧ t.memRead (addrOperand address) = some (s.reg reg) ∧
      (∀ a, a ≠ (addrOperand address).toNat → t.mem.read a = s.mem.read a) ∧
      Completed (.mset address reg) s t

/-- R171: MGET gives its register the integer in a set cell and leaves memory as it was. -/
def Obligations.MgetLoadsASetCell : Prop :=
  ∀ (s : State) (address : Int) (reg : Reg) (v : Int), s.cfg.okAddr address = true →
    s.memRead (addrOperand address) = some v → s.cfg.fits v = true →
    ∃ t, exec (.mget address reg) s = .next t ∧ t.reg reg = v ∧
      Completed (.mget address reg) s t ∧ s.KeepsMemory t

/-- R190, R159: JILT sets IP to its target iff the register is less than the literal as signed integers, else IP stays
past the instruction; nothing else changes. -/
def Obligations.JiltJumpsIffLess : Prop :=
  ∀ (s : State) (reg : Reg) (literal target : Int),
    (s.reg reg < literal → s.cfg.fits target = true) →
    ∃ t, exec (.jilt reg literal target) s = .next t ∧
      t.ip = (if s.reg reg < literal then target else s.ip) ∧
      Completed (.jilt reg literal target) s t ∧ s.KeepsMemory t

/-- R160, R213, R205: with a finite width a register write that does not fit raises `Fault(ValueRange)` with the exact
value, and nothing is written. The fault is the spec's decision D3. -/
def Obligations.RegisterWriteOutOfRangeFaults : Prop :=
  ∀ s : State,
    (∀ reg literal, s.cfg.fits literal = false →
      exec (.rset reg literal) s = .next { s with status := .fault (.valueRange literal) }) ∧
    (∀ src dest, s.cfg.fits (s.reg src) = false →
      exec (.rcpy src dest) s = .next { s with status := .fault (.valueRange (s.reg src)) }) ∧
    (∀ accum addend, s.cfg.fits (s.reg accum + s.reg addend) = false →
      exec (.radd accum addend) s = .next { s with status := .fault (.valueRange (s.reg accum + s.reg addend)) }) ∧
    (∀ address reg v, s.cfg.okAddr address = true → s.memRead address = some v → s.cfg.fits v = false →
      exec (.mget address reg) s = .next { s with status := .fault (.valueRange v) }) ∧
    (∀ reg literal target, s.reg reg < literal → s.cfg.fits target = false →
      exec (.jilt reg literal target) s = .next { s with status := .fault (.valueRange target) })

/-- R51, R211 for MSET and MGET, R212: an invalid address raises `Fault(BadAddress)`, an unset cell under MGET raises
`Fault(UnsetLoad)`; nothing is written. The faults are the spec's decisions D5, D7. -/
def Obligations.MemoryAccessFaults : Prop :=
  ∀ (s : State) (address : Int) (reg : Reg),
    (s.cfg.okAddr address = false →
      exec (.mset address reg) s = .next { s with status := .fault (.badAddress address) } ∧
      exec (.mget address reg) s = .next { s with status := .fault (.badAddress address) }) ∧
    (s.cfg.okAddr address = true → s.memRead address = none →
      exec (.mget address reg) s = .next { s with status := .fault (.unsetLoad address) })

/-- R22, R67, R127, R216, the frame of the seven instructions that store nothing, on every path: every cell of memory
and every register but the one written are as they were; and either the instruction completed, or it raised and no
register, no cell and not the record changed. -/
def Obligations.FrameOfInstructionsThatStoreNothing : Prop :=
  ∀ (i : Instr) (s t : State), i.opcode ≠ .mset → exec i s = .next t →
    s.KeepsMemory t ∧ (∀ q, i.written ≠ some q → t.reg q = s.reg q) ∧
    (Completed i s t ∨ t.status.terminal = true ∧ t = { s with status := t.status })

/-- R22, R170, R127, the frame of MSET on every path: every register is as it was, every cell but the one at the
address operand is as it was; and either it completed, or it raised and nothing but the status changed. -/
def Obligations.FrameOfMset : Prop :=
  ∀ (s t : State) (address : Int) (reg : Reg), exec (.mset address reg) s = .next t →
    (∀ q, t.reg q = s.reg q) ∧
    (∀ a, a ≠ (addrOperand address).toNat → t.mem.read a = s.mem.read a) ∧
    (Completed (.mset address reg) s t ∨ t.status.terminal = true ∧ t = { s with status := t.status })

/-- R191: where the destination is IP, each register-writing instruction is a jump: absolute for RSET, to the address
in the source for RCPY, relative to the next instruction for RADD, through memory for MGET. -/
def Obligations.WritingIpTransfersControl : Prop :=
  ∀ s : State,
    (∀ n, s.cfg.fits n = true → ∃ t, exec (.rset .ip n) s = .next t ∧ t.ip = n) ∧
    (∀ r, s.cfg.fits (s.reg r) = true → ∃ t, exec (.rcpy r .ip) s = .next t ∧ t.ip = s.reg r) ∧
    (∀ r, s.cfg.fits (s.ip + s.reg r) = true → ∃ t, exec (.radd .ip r) s = .next t ∧ t.ip = s.ip + s.reg r) ∧
    (∀ m v, s.cfg.okAddr m = true → s.memRead m = some v → s.cfg.fits v = true →
      ∃ t, exec (.mget m .ip) s = .next t ∧ t.ip = v)

/-- R65, R64: a step that runs an MSET executes the words it fetched, be its target one of them: it completes at the
next instruction with the cell set to the register's value after the fetch. -/
def Obligations.StoreIntoTheInstructionItselfExecutesAsFetched : Prop :=
  ∀ (s : State) (address : Int) (reg : Reg), s.status.terminal = false → s.cfg.wellFormed = true →
    s.holds s.ip (encode s.cfg (.mset address reg)) → s.canFetch 3 →
    s.ip ≤ address → address < s.ip + 3 →
    ∃ t, step s = .next t ∧ t.ip = s.ip + 3 ∧ t.status = .running ∧ t.last = some (.mset address reg) ∧
      t.memRead address = some (({ s with ip := s.ip + 3 } : State).reg reg)

/-- R64, R170: a store to the cell after the instruction is what the very next step fetches as its opcode word, whatever
word is stored and be the register IP: a word that is no opcode's number stops the core there, and one that begins an
instruction with the words already after it is executed. -/
def Obligations.StoreIsSeenByTheNextFetch : Prop :=
  ∀ (s : State) (reg : Reg) (w : Int), s.status.terminal = false → s.cfg.wellFormed = true →
    s.holds s.ip (encode s.cfg (.mset (s.ip + 3) reg)) → s.canFetch 4 →
    ({ s with ip := s.ip + 3 } : State).reg reg = w →
    ∃ t, step s = .next t ∧ t.status = .running ∧ t.ip = s.ip + 3 ∧
      fetchWord t = .got (some w) (t.withIp (s.ip + 4)) ∧
      ((∀ op, s.cfg.opNum op ≠ w) →
        step t = .next { t with status := .error (.unknownOpcode w), ip := s.ip + 4 }) ∧
      ∀ (i : Instr) (rest : List Int), decode s.cfg (w :: rest) = .ok (i, []) →
        s.holds (s.ip + 4) rest → s.canFetch (4 + rest.length) →
        step t = exec i { t with ip := s.ip + 4 + rest.length }

/-! ## The whole machine -/

/-- R67, R38: a step changes a cell only by completing an MSET to that cell's address, and the cell then holds the
value of the MSET's register. -/
def Obligations.OnlyMsetChangesMemory : Prop :=
  ∀ (s t : State) (a : Nat), step s = .next t → t.mem.read a ≠ s.mem.read a →
    ∃ address reg, t.last = some (.mset address reg) ∧ t.status = .running ∧ address = a ∧
      t.mem.read a = some (t.reg reg)

/-- R39: a cell once set stays set, by a step, by a run and by a load. -/
def Obligations.SetCellsStaySet : Prop :=
  (∀ (s t : State) (a : Nat), step s = .next t → s.mem.read a ≠ none → t.mem.read a ≠ none) ∧
  (∀ (s : State) (r : RunRecord) (n : Int) (a : Nat), run n s = .next r → s.mem.read a ≠ none →
    r.final.mem.read a ≠ none) ∧
  (∀ (s t : State) (image : List Int) (offset : Int) (a : Nat), s.load image offset = .next t →
    s.mem.read a ≠ none → t.mem.read a ≠ none)

/-- R131, R22: beside IP, the status and the record, a step changes at most one register or at most one cell, never both: the
register the recorded instruction writes, or the cell at the address operand of the recorded MSET; and neither where it
does not complete. -/
def Obligations.StepChangesOneRegisterOrOneCell : Prop :=
  ∀ s t : State, step s = .next t →
    (t.status ≠ .running → s.KeepsMemory t ∧ ∀ q, q ≠ .ip → t.reg q = s.reg q) ∧
    (t.status = .running → ∃ i, t.last = some i ∧
      (i.opcode ≠ .mset → s.KeepsMemory t ∧ ∀ q, q ≠ .ip → i.written ≠ some q → t.reg q = s.reg q) ∧
      ∀ address reg, i = .mset address reg →
        (∀ q, q ≠ .ip → t.reg q = s.reg q) ∧
        ∀ a, a ≠ (addrOperand address).toNat → t.mem.read a = s.mem.read a)

/-- R216, R201, R204: a performed step that does not complete ends in a terminal status (so no step sets
`BudgetExceeded`), with IP advanced by the fetch alone and R1, R2, R3, memory, the record and the parameters as they
were. -/
def Obligations.ExceptionsArePrecise : Prop :=
  ∀ s t : State, s.status.terminal = false → step s = .next t → t.status ≠ .running →
    t.status.terminal = true ∧ s.ip ≤ t.ip ∧ t.ip ≤ s.ip + 4 ∧
    t = { s with ip := t.ip, status := t.status }

/-- R128, R201: a performed step that completes records an instruction whose words stood at IP before the step. -/
def Obligations.CompletedStepRecordsWhatItFetched : Prop :=
  ∀ s t : State, s.status.terminal = false → step s = .next t → t.status = .running →
    ∃ i, t.last = some i ∧ s.holds s.ip (encode s.cfg i) ∧ s.canFetch i.length ∧
      exec i { s with status := .running, ip := s.ip + i.length } = .next t

/-- R213: with unbounded values no step raises `Fault(ValueRange)`. -/
def Obligations.UnboundedValuesNeverRaiseRangeFaults : Prop :=
  ∀ (s t : State) (v : Int), s.cfg.valueWidth = none → step s = .next t →
    s.status ≠ .fault (.valueRange v) → t.status ≠ .fault (.valueRange v)

/-- R33: no instruction reads the record: two states that differ only in it step to states that differ only in it. -/
def Obligations.NoStepReadsTheLastRecord : Prop :=
  ∀ (s t u : State) (l : Option Instr), step s = .next t → step { s with last := l } = .next u →
    { u with last := none } = { t with last := none }

/-- Log 1: no step and no load changes the parameters of a session. -/
def Obligations.ParametersNeverChange : Prop :=
  (∀ s t : State, step s = .next t → t.cfg = s.cfg) ∧
  (∀ (s t : State) (image : List Int) (offset : Int), s.load image offset = .next t → t.cfg = s.cfg)

/-! ## Invariants -/

/-- The reset state is sound and its status is explained. -/
def Obligations.ResetIsSound : Prop :=
  State.reset.Sound ∧ State.reset.StatusExplained

/-- R20, R23, R35, R36, R51, R160: a step keeps memory canonical at valid addresses, and keeps every register and
every set cell at a value of the width, from every sound state. -/
def Obligations.StepKeepsStatesSound : Prop :=
  ∀ s t : State, s.Sound → step s = .next t → t.Sound

/-- R243, R249, R160: a load over a sound session, or a first load under sound parameters, leaves a sound state. -/
def Obligations.LoadLeavesASoundState : Prop :=
  (∀ (s t : State) (image : List Int) (offset : Int), s.Sound → s.load image offset = .next t → t.Sound) ∧
  (∀ (c : Config) (t : State) (image : List Int) (offset : Int), c.wellFormed = true →
    firstLoad c image offset = .next t → t.Sound)

/-- R206 to R213, R122 to R126, R141: after every step the status is true of the memory and of IP: the cell a Halted
core stands past is unset, the word of an unknown opcode and of a bad register is in memory where IP says it is, the
cell an UnsetLoad names is unset. -/
def Obligations.StepKeepsTheStatusExplained : Prop :=
  ∀ s t : State, s.StatusExplained → step s = .next t → t.StatusExplained

/-! ## The run driver -/

/-- R253, R254: a budget of zero or less invokes no step, and a session that is not terminal is then `BudgetExceeded`.
A negative budget as 0 is the spec's decision D11. -/
def Obligations.EmptyBudgetInvokesNoStep : Prop :=
  ∀ (s : State) (n : Int), n ≤ 0 → s.status.terminal = false →
    run n s = .next { final := { s with status := .budgetExceeded }, invoked := [] }

/-- R253, R204, R222: `run(N)` answers in every state, invokes at most `N` steps, never leaves the status Running, and
leaves `BudgetExceeded` only after exactly its budget of steps. What counts as a step is the spec's decision D11. -/
def Obligations.RunStaysWithinItsBudget : Prop :=
  ∀ (s : State) (n : Int), ∃ r, run n s = .next r ∧
    r.ticks ≤ n.toNat ∧ r.final.status ≠ .running ∧
    (r.final.status = .budgetExceeded → r.ticks = n.toNat)

/-- R255: `run(N)` is at most `N` calls of `step`, and leaves the state those calls give, except for the status name
`BudgetExceeded`. -/
def Obligations.RunIsRepeatedStep : Prop :=
  ∀ (s : State) (n : Int) (r : RunRecord), run n s = .next r →
    r.ticks ≤ n.toNat ∧ ∃ t, Sys2Proof.core.run r.ticks s = .next t ∧ r.final = t.resume.exhaust

/-- R204, R254: a run that goes on from where an earlier one stopped is one run with both budgets. Resuming is the
spec's decision D10. -/
def Obligations.RunsCompose : Prop :=
  ∀ (s : State) (m n : Nat) (q r : RunRecord), run m s = .next q → run n q.final = .next r →
    run (m + n : Nat) s = .next { final := r.final, invoked := q.invoked ++ r.invoked }

/-! ## Observation by the host -/

/-- R41: `dump` lists every set cell and no unset one, in strictly increasing address order, with the mnemonic of the
opcode whose number the cell holds, or nothing. Order and naming are the spec's decision D25. -/
def Obligations.DumpListsTheSetCells : Prop :=
  ∀ s : State, s.Sound →
    (s.dump.map DumpEntry.address).Pairwise (· < ·) ∧
    (∀ (a : Nat) (v : Int), s.mem.read a = some v ↔ ∃ e ∈ s.dump, e.address = a ∧ e.rawValue = v) ∧
    ∀ e ∈ s.dump, (∀ op, s.cfg.opNum op = e.rawValue → e.opcodeName = mnemonicOf op) ∧
      ((∀ op, s.cfg.opNum op ≠ e.rawValue) → e.opcodeName = [])

/-- R40, R258: `snapshot` and `dump` answer in every status of a session and change nothing of it. -/
def Obligations.SnapshotAndDumpOnlyLook : Prop :=
  ∀ (c : Config) (s : State),
    hostDo c (some s) .snapshot = .next
      { session := s, answer := .snapshot s.snapshot, observer := [], sink := [], renderer := [] } ∧
    hostDo c (some s) .dump = .next
      { session := s, answer := .dump s.dump, observer := [], sink := [], renderer := [] } ∧
    s.snapshot.ip = s.ip ∧ s.snapshot.r1 = s.r1 ∧ s.snapshot.r2 = s.r2 ∧ s.snapshot.r3 = s.r3 ∧
    (s.last = none → s.snapshot.lastInstruction = []) ∧
    ∀ i, s.last = some i → s.snapshot.lastInstruction = disassemble i

/-- R42, R128, R217: a performed step hands the observer exactly one snapshot, of the state after it, if it completes
and nothing if it raises; it reports its cause to the error sink exactly if that is an Error or a Fault; the renderer
is given the snapshot and the dump after it (log 13); in a terminal status nothing is emitted. That Faults are
reported is the spec's decision D16. -/
def Obligations.StepEmitsSnapshotOrReport : Prop :=
  ∀ s : State, ∃ t, step s = .next t ∧ ∃ r, hostStep s = .next r ∧
    r.session = t ∧ r.answer = .status t.status ∧
    (s.status.terminal = true → r.observer = [] ∧ r.sink = [] ∧ r.renderer = []) ∧
    (s.status.terminal = false → r.renderer = [(t.snapshot, t.dump)] ∧
      (t.status = .running → r.observer = [t.snapshot] ∧ r.sink = []) ∧
      (t.status ≠ .running → r.observer = []) ∧
      (t.status = .halted → r.sink = []) ∧
      (∀ e, t.status = .error e → r.sink = [.error e]) ∧
      ∀ f, t.status = .fault f → r.sink = [.fault f])
end

