-- ==== Sys2Proof/Laws/Decode.lean ====
section
/-! SUPPORT. What the decoders answer. -/

namespace Sys2Proof

variable {c : Config}

/-- An opcode that is decoded has the word as its number; no constraint on the numbering is needed. -/
theorem Config.opNum_of_opDec {w : Int} {op : Opcode} (h : c.opDec w = some op) : c.opNum op = w := by
  simpa using List.find?_some h

/-- A register that is decoded has the word as its number. -/
theorem Config.regNum_of_regDec {v : Int} {r : Reg} (h : c.regDec v = some r) : c.regNum r = v := by
  simpa using List.find?_some h

/-- A REG word that resolves is the register's number. -/
theorem Config.regArg_ok {v : Int} {r : Reg} (h : c.regArg v = .ok r) : c.regNum r = v := by
  unfold Config.regArg at h
  split at h
  · next hd => cases h; exact Config.regNum_of_regDec hd
  · cases h

/-- A REG word that does not resolve names no register. -/
theorem Config.regArg_error {v : Int} {e : DecodeError} (h : c.regArg v = .error e) :
    c.regDec v = none ∧ e = .badRegister v := by
  unfold Config.regArg at h
  split at h
  · cases h
  · next hd => cases h; exact ⟨hd, rfl⟩

/-- Operand decode that succeeds read exactly the argument words of the instruction it answers, of that opcode. -/
theorem Config.decodeArgs_ok {op : Opcode} {v : List Int} {i : Instr} (h : c.decodeArgs op v = .ok i) :
    i.opcode = op ∧ encodeArgs c i = v := by
  unfold Config.decodeArgs at h
  split at h
  case h_1 => cases h; exact ⟨rfl, rfl⟩
  case h_2 => cases h; exact ⟨rfl, rfl⟩
  case h_9 => cases h
  case h_4 src dest =>
    cases ha : c.regArg src with
    | error e => rw [ha] at h; cases h
    | ok a =>
      cases hb : c.regArg dest with
      | error e => rw [ha, hb] at h; cases h
      | ok b => rw [ha, hb] at h; cases h; simp [Instr.opcode, encodeArgs, regArg_ok ha, regArg_ok hb]
  case h_5 accum addend =>
    cases ha : c.regArg accum with
    | error e => rw [ha] at h; cases h
    | ok a =>
      cases hb : c.regArg addend with
      | error e => rw [ha, hb] at h; cases h
      | ok b => rw [ha, hb] at h; cases h; simp [Instr.opcode, encodeArgs, regArg_ok ha, regArg_ok hb]
  case h_3 reg literal =>
    cases hr : c.regArg reg with
    | error e => rw [hr] at h; cases h
    | ok r => rw [hr] at h; cases h; simp [Instr.opcode, encodeArgs, regArg_ok hr]
  case h_6 address reg =>
    cases hr : c.regArg reg with
    | error e => rw [hr] at h; cases h
    | ok r => rw [hr] at h; cases h; simp [Instr.opcode, encodeArgs, regArg_ok hr]
  case h_7 address reg =>
    cases hr : c.regArg reg with
    | error e => rw [hr] at h; cases h
    | ok r => rw [hr] at h; cases h; simp [Instr.opcode, encodeArgs, regArg_ok hr]
  case h_8 reg literal target =>
    cases hr : c.regArg reg with
    | error e => rw [hr] at h; cases h
    | ok r => rw [hr] at h; cases h; simp [Instr.opcode, encodeArgs, regArg_ok hr]

/-- Operand decode of as many words as the arity fails only at a REG word that names no register, and reports it. -/
theorem Config.decodeArgs_error {op : Opcode} {v : List Int} {e : DecodeError} (hl : v.length = op.arity)
    (h : c.decodeArgs op v = .error e) :
    ∃ (k : Nat) (w : Int), e = .badRegister w ∧ op.kinds[k]? = some .reg ∧ v[k]? = some w ∧ c.regDec w = none := by
  unfold Config.decodeArgs at h
  split at h
  case h_1 => cases h
  case h_2 => cases h
  case h_3 reg literal =>
    cases hr : c.regArg reg with
    | error e' =>
      rw [hr] at h; cases h
      exact ⟨0, reg, (regArg_error hr).2, rfl, rfl, (regArg_error hr).1⟩
    | ok r => rw [hr] at h; cases h
  case h_4 src dest =>
    cases ha : c.regArg src with
    | error e' =>
      rw [ha] at h; cases h
      exact ⟨0, src, (regArg_error ha).2, rfl, rfl, (regArg_error ha).1⟩
    | ok a =>
      cases hb : c.regArg dest with
      | error e' =>
        rw [ha, hb] at h; cases h
        exact ⟨1, dest, (regArg_error hb).2, rfl, rfl, (regArg_error hb).1⟩
      | ok b => rw [ha, hb] at h; cases h
  case h_5 accum addend =>
    cases ha : c.regArg accum with
    | error e' =>
      rw [ha] at h; cases h
      exact ⟨0, accum, (regArg_error ha).2, rfl, rfl, (regArg_error ha).1⟩
    | ok a =>
      cases hb : c.regArg addend with
      | error e' =>
        rw [ha, hb] at h; cases h
        exact ⟨1, addend, (regArg_error hb).2, rfl, rfl, (regArg_error hb).1⟩
      | ok b => rw [ha, hb] at h; cases h
  case h_6 address reg =>
    cases hr : c.regArg reg with
    | error e' =>
      rw [hr] at h; cases h
      exact ⟨1, reg, (regArg_error hr).2, rfl, rfl, (regArg_error hr).1⟩
    | ok r => rw [hr] at h; cases h
  case h_7 address reg =>
    cases hr : c.regArg reg with
    | error e' =>
      rw [hr] at h; cases h
      exact ⟨1, reg, (regArg_error hr).2, rfl, rfl, (regArg_error hr).1⟩
    | ok r => rw [hr] at h; cases h
  case h_8 reg literal target =>
    cases hr : c.regArg reg with
    | error e' =>
      rw [hr] at h; cases h
      exact ⟨0, reg, (regArg_error hr).2, rfl, rfl, (regArg_error hr).1⟩
    | ok r => rw [hr] at h; cases h
  case h_9 h1 h2 h3 h4 h5 h6 h7 h8 =>
    exfalso
    cases op <;> simp [Opcode.arity, Opcode.kinds] at hl
    · exact h1 rfl hl
    · exact h2 rfl hl
    · obtain ⟨x, y, rfl⟩ := List.length_eq_two.1 hl; exact h3 x y rfl rfl
    · obtain ⟨x, y, rfl⟩ := List.length_eq_two.1 hl; exact h4 x y rfl rfl
    · obtain ⟨x, y, rfl⟩ := List.length_eq_two.1 hl; exact h5 x y rfl rfl
    · obtain ⟨x, y, rfl⟩ := List.length_eq_two.1 hl; exact h6 x y rfl rfl
    · obtain ⟨x, y, rfl⟩ := List.length_eq_two.1 hl; exact h7 x y rfl rfl
    · obtain ⟨x, y, z, rfl⟩ := List.length_eq_three.1 hl; exact h8 x y z rfl rfl

/-- The range of values is convex: what lies between two values that fit fits too. -/
theorem Config.fits_between {x y z : Int} (hx : c.fits x = true) (hz : c.fits z = true) (h1 : x ≤ y) (h2 : y ≤ z) :
    c.fits y = true := by
  cases hw : c.valueWidth with
  | none => simp [Config.fits, hw]
  | some w =>
    simp only [Config.fits, hw, Bool.and_eq_true, decide_eq_true_eq] at hx hz ⊢
    exact ⟨hx.1.trans h1, h2.trans hz.2⟩

/-- Unbounded values all fit. -/
theorem Config.fits_unbounded (h : c.valueWidth = none) (v : Int) : c.fits v = true := by
  simp [Config.fits, h]

/-- With unbounded addresses the address test is non-negativity (R51). -/
theorem Config.okAddr_unbounded (h : c.addrWidth = none) (a : Int) : c.okAddr a = decide (0 ≤ a) := by
  simp [Config.okAddr, h]

/-- A valid address is non-negative. -/
theorem Config.okAddr_nonneg {a : Int} (h : c.okAddr a = true) : 0 ≤ a := by
  simp [Config.okAddr] at h
  exact h.1

end Sys2Proof
end

