-- ==== Sys2Proof/Laws/State.lean ====
section
/-! SUPPORT. One lemma per field per update of the state, and per query of an updated state. The updates are `setReg`,
`withIp`, `memWrite`, `raise`, `record` and `resume`. -/

namespace Sys2Proof.Machine

variable (s : State) (v a : Int) (k : Status) (i : Instr)

@[simp] theorem State.reg_ip : s.reg .ip = s.ip := rfl
@[simp] theorem State.reg_r1 : s.reg .r1 = s.r1 := rfl
@[simp] theorem State.reg_r2 : s.reg .r2 = s.r2 := rfl
@[simp] theorem State.reg_r3 : s.reg .r3 = s.r3 := rfl

@[simp] theorem State.setReg_cfg (r : Reg) : (s.setReg r v).cfg = s.cfg := by cases r <;> rfl
@[simp] theorem State.setReg_mem (r : Reg) : (s.setReg r v).mem = s.mem := by cases r <;> rfl
@[simp] theorem State.setReg_status (r : Reg) : (s.setReg r v).status = s.status := by cases r <;> rfl
@[simp] theorem State.setReg_last (r : Reg) : (s.setReg r v).last = s.last := by cases r <;> rfl

@[simp] theorem State.setReg_memRead (r : Reg) : (s.setReg r v).memRead a = s.memRead a := by cases r <;> rfl

/-- Writing IP by number and by name is one thing (R8). -/
theorem State.setReg_ip : s.setReg .ip v = s.withIp v := rfl

/-- A register reads as it was written. -/
@[simp] theorem State.reg_setReg_same (r : Reg) : (s.setReg r v).reg r = v := by cases r <;> rfl

/-- Writing one register leaves every other as it was. -/
theorem State.reg_setReg_other {r q : Reg} (h : q ≠ r) : (s.setReg r v).reg q = s.reg q := by
  cases r <;> cases q <;> first | rfl | exact absurd rfl h

/-- Reading any register of a state with one register written. -/
theorem State.reg_setReg (r q : Reg) : (s.setReg r v).reg q = if q = r then v else s.reg q := by
  split
  · next h => subst h; simp
  · next h => exact State.reg_setReg_other s v h

@[simp] theorem State.withIp_cfg : (s.withIp v).cfg = s.cfg := rfl
@[simp] theorem State.withIp_ip : (s.withIp v).ip = v := rfl
@[simp] theorem State.withIp_r1 : (s.withIp v).r1 = s.r1 := rfl
@[simp] theorem State.withIp_r2 : (s.withIp v).r2 = s.r2 := rfl
@[simp] theorem State.withIp_r3 : (s.withIp v).r3 = s.r3 := rfl
@[simp] theorem State.withIp_mem : (s.withIp v).mem = s.mem := rfl
@[simp] theorem State.withIp_status : (s.withIp v).status = s.status := rfl
@[simp] theorem State.withIp_last : (s.withIp v).last = s.last := rfl

@[simp] theorem State.withIp_memRead : (s.withIp v).memRead a = s.memRead a := rfl
@[simp] theorem State.withIp_withIp (w : Int) : (s.withIp v).withIp w = s.withIp w := rfl
@[simp] theorem State.withIp_self : s.withIp s.ip = s := rfl

/-- Beside IP, a register reads as before IP was written. -/
theorem State.withIp_reg_other {r : Reg} (h : r ≠ .ip) : (s.withIp v).reg r = s.reg r :=
  State.reg_setReg_other s v h

@[simp] theorem State.memWrite_cfg : (s.memWrite a v).cfg = s.cfg := rfl
@[simp] theorem State.memWrite_ip : (s.memWrite a v).ip = s.ip := rfl
@[simp] theorem State.memWrite_r1 : (s.memWrite a v).r1 = s.r1 := rfl
@[simp] theorem State.memWrite_r2 : (s.memWrite a v).r2 = s.r2 := rfl
@[simp] theorem State.memWrite_r3 : (s.memWrite a v).r3 = s.r3 := rfl
@[simp] theorem State.memWrite_mem : (s.memWrite a v).mem = s.mem.write a.toNat v := rfl
@[simp] theorem State.memWrite_status : (s.memWrite a v).status = s.status := rfl
@[simp] theorem State.memWrite_last : (s.memWrite a v).last = s.last := rfl

@[simp] theorem State.memWrite_reg (r : Reg) : (s.memWrite a v).reg r = s.reg r := by cases r <;> rfl

@[simp] theorem State.raise_cfg : (s.raise k).cfg = s.cfg := rfl
@[simp] theorem State.raise_ip : (s.raise k).ip = s.ip := rfl
@[simp] theorem State.raise_r1 : (s.raise k).r1 = s.r1 := rfl
@[simp] theorem State.raise_r2 : (s.raise k).r2 = s.r2 := rfl
@[simp] theorem State.raise_r3 : (s.raise k).r3 = s.r3 := rfl
@[simp] theorem State.raise_mem : (s.raise k).mem = s.mem := rfl
@[simp] theorem State.raise_status : (s.raise k).status = k := rfl
@[simp] theorem State.raise_last : (s.raise k).last = s.last := rfl

@[simp] theorem State.raise_reg (r : Reg) : (s.raise k).reg r = s.reg r := by cases r <;> rfl
@[simp] theorem State.raise_memRead : (s.raise k).memRead a = s.memRead a := rfl

@[simp] theorem State.record_cfg : (s.record i).cfg = s.cfg := rfl
@[simp] theorem State.record_ip : (s.record i).ip = s.ip := rfl
@[simp] theorem State.record_r1 : (s.record i).r1 = s.r1 := rfl
@[simp] theorem State.record_r2 : (s.record i).r2 = s.r2 := rfl
@[simp] theorem State.record_r3 : (s.record i).r3 = s.r3 := rfl
@[simp] theorem State.record_mem : (s.record i).mem = s.mem := rfl
@[simp] theorem State.record_status : (s.record i).status = s.status := rfl
@[simp] theorem State.record_last : (s.record i).last = some i := rfl

@[simp] theorem State.record_reg (r : Reg) : (s.record i).reg r = s.reg r := by cases r <;> rfl
@[simp] theorem State.record_memRead : (s.record i).memRead a = s.memRead a := rfl

@[simp] theorem State.resume_cfg : (s.resume).cfg = s.cfg := by unfold State.resume; split <;> rfl
@[simp] theorem State.resume_ip : (s.resume).ip = s.ip := by unfold State.resume; split <;> rfl
@[simp] theorem State.resume_r1 : (s.resume).r1 = s.r1 := by unfold State.resume; split <;> rfl
@[simp] theorem State.resume_r2 : (s.resume).r2 = s.r2 := by unfold State.resume; split <;> rfl
@[simp] theorem State.resume_r3 : (s.resume).r3 = s.r3 := by unfold State.resume; split <;> rfl
@[simp] theorem State.resume_mem : (s.resume).mem = s.mem := by unfold State.resume; split <;> rfl
@[simp] theorem State.resume_last : (s.resume).last = s.last := by unfold State.resume; split <;> rfl

@[simp] theorem State.resume_reg (r : Reg) : s.resume.reg r = s.reg r := by unfold State.resume; split <;> rfl
@[simp] theorem State.resume_memRead : s.resume.memRead a = s.memRead a := by unfold State.resume; split <;> rfl

/-- Outside the terminal statuses, resuming sets the status to running (R204). -/
theorem State.resume_eq {s : State} (h : s.status.terminal = false) : s.resume = s.raise .running := by
  obtain ⟨c, i, x, y, z, m, k, l⟩ := s
  cases k <;> first | rfl | cases h

/-- Outside the terminal statuses, a resumed state is running (R204). -/
theorem State.resume_status {s : State} (h : s.status.terminal = false) : s.resume.status = .running := by
  rw [State.resume_eq h]; rfl

/-- In a terminal status there is nothing to resume. -/
theorem State.resume_of_terminal {s : State} (h : s.status.terminal = true) : s.resume = s := by
  unfold State.resume
  split <;> simp_all [Status.terminal]

/-- A running state is its own resumption. -/
theorem State.resume_of_running {s : State} (h : s.status = .running) : s.resume = s := by
  simp [State.resume, h]

/-- A register read of a state given by its fields. -/
@[simp] theorem State.reg_mk_self (c : Config) (m : Memory) (l : Option Instr) (r : Reg) :
    State.reg ⟨c, s.ip, s.r1, s.r2, s.r3, m, k, l⟩ r = s.reg r := by cases r <;> rfl

/-- Beside IP, a register read of a state given by its fields does not see IP. -/
theorem State.reg_mk_other (c : Config) (m : Memory) (l : Option Instr) {r : Reg} (h : r ≠ .ip) :
    State.reg ⟨c, v, s.r1, s.r2, s.r3, m, k, l⟩ r = s.reg r := by
  cases r <;> first | rfl | exact absurd rfl h

/-- A memory read of a state given by its fields looks at memory alone. -/
@[simp] theorem State.memRead_mk (c : Config) (w x y z : Int) (l : Option Instr) :
    State.memRead ⟨c, w, x, y, z, s.mem, k, l⟩ a = s.memRead a := rfl

end Sys2Proof.Machine
end

