-- ==== Sys2Proof/Laws/Memory.lean ====
section
/-! SUPPORT. The laws of memory: a read after a write, the canonical form, and consecutive writes. -/

namespace Sys2Proof.Machine

@[simp] theorem Memory.read_nil (a : Nat) : Memory.read [] a = none := rfl

/-- A cell reads as it was written. -/
@[simp] theorem Memory.read_write_same (m : Memory) (a : Nat) (v : Int) : (m.write a v).read a = some v := by
  induction m with
  | nil => simp [Memory.write, Memory.read]
  | cons e m ih =>
    simp only [Memory.write]
    split
    · simp [Memory.read]
    · split
      · simp [Memory.read]
      · next hne => simp [Memory.read, hne, ih]

/-- A write leaves every other cell as it was. -/
theorem Memory.read_write_other (m : Memory) {a b : Nat} (v : Int) (h : b ≠ a) :
    (m.write a v).read b = m.read b := by
  induction m with
  | nil => simp [Memory.write, Memory.read, h]
  | cons e m ih =>
    simp only [Memory.write]
    split
    · simp [Memory.read, h]
    · split
      · next heq => subst heq; simp [Memory.read, h]
      · simp [Memory.read, ih]

/-- Reading any cell of a memory with one cell written. -/
theorem Memory.read_write (m : Memory) (a b : Nat) (v : Int) :
    (m.write a v).read b = if b = a then some v else m.read b := by
  split
  · next h => subst h; simp
  · next h => exact m.read_write_other v h

/-- The addresses of a memory with one cell written are the old ones and that one. -/
theorem Memory.mem_keys_write (m : Memory) (a : Nat) (v : Int) (b : Nat) :
    b ∈ (m.write a v).map Prod.fst ↔ b = a ∨ b ∈ m.map Prod.fst := by
  induction m with
  | nil => simp [Memory.write]
  | cons e m ih =>
    simp only [Memory.write]
    split
    · simp
    · split
      · next heq => subst heq; simp
      · simp only [List.map_cons, List.mem_cons, ih]; tauto

/-- A write keeps the canonical form. -/
theorem Memory.write_wf {m : Memory} (h : m.wf) (a : Nat) (v : Int) : (m.write a v).wf := by
  induction m with
  | nil => simp [Memory.write, Memory.wf]
  | cons e m ih =>
    obtain ⟨b, w⟩ := e
    have hb : ∀ x ∈ m.map Prod.fst, b < x := (List.pairwise_cons.1 h).1
    have hm : Memory.wf m := (List.pairwise_cons.1 h).2
    simp only [Memory.write]
    split
    · next hlt =>
      refine List.pairwise_cons.2 ⟨fun x hx => ?_, h⟩
      rcases List.mem_cons.1 hx with rfl | hx
      · exact hlt
      · exact hlt.trans (hb x hx)
    · split
      · next heq => subst heq; exact List.pairwise_cons.2 ⟨hb, hm⟩
      · refine List.pairwise_cons.2 ⟨fun x hx => ?_, ih hm⟩
        rcases (Memory.mem_keys_write m a v x).1 hx with rfl | hx
        · omega
        · exact hb x hx

/-- Consecutive writes keep the canonical form. -/
theorem Memory.writeAll_wf {m : Memory} (h : m.wf) (a : Nat) (vs : List Int) : (m.writeAll a vs).wf := by
  induction vs generalizing m a with
  | nil => exact h
  | cons v vs ih => exact ih (Memory.write_wf h a v) (a + 1)

/-- Reading any cell of a memory with consecutive cells written. -/
theorem Memory.read_writeAll (m : Memory) (a : Nat) (vs : List Int) (b : Nat) :
    (m.writeAll a vs).read b = if a ≤ b ∧ b < a + vs.length then vs[b - a]? else m.read b := by
  induction vs generalizing m a with
  | nil =>
    have h : ¬(a ≤ b ∧ b < a + ([] : List Int).length) := by simp
    rw [if_neg h]; rfl
  | cons v vs ih =>
    simp only [Memory.writeAll, ih, Memory.read_write, List.length_cons]
    by_cases hb : b = a
    · subst hb; simp
    · by_cases hr : a + 1 ≤ b ∧ b < a + 1 + vs.length
      · rw [if_pos hr, if_pos (by omega), show b - a = (b - (a + 1)) + 1 by omega, List.getElem?_cons_succ]
      · rw [if_neg hr, if_neg hb, if_neg (by omega)]

/-- A listed cell of a canonical memory is what its address reads as, and nothing else reads as set (R36). -/
theorem Memory.read_eq_some {m : Memory} (h : m.wf) (a : Nat) (v : Int) : m.read a = some v ↔ (a, v) ∈ m := by
  induction m with
  | nil => simp
  | cons e m ih =>
    obtain ⟨b, w⟩ := e
    have hb : ∀ x ∈ m.map Prod.fst, b < x := (List.pairwise_cons.1 h).1
    have hm : Memory.wf m := (List.pairwise_cons.1 h).2
    simp only [Memory.read, List.mem_cons, Prod.mk.injEq]
    split
    · next heq =>
      subst heq
      constructor
      · rintro ⟨⟩; exact .inl ⟨rfl, rfl⟩
      · rintro (⟨-, rfl⟩ | hin)
        · rfl
        · exact absurd (hb a (List.mem_map.2 ⟨(a, v), hin, rfl⟩)) (lt_irrefl a)
    · next hne =>
      rw [ih hm]
      exact ⟨.inr, fun h => h.resolve_left fun hh => hne hh.1⟩

end Sys2Proof.Machine
end

