-- ==== Sys2Proof/Laws/Ops.lean ====
section
/-! SUPPORT. One lemma for each operation the meanings share, saying everything it can answer, and one for `exec`: what the
effect of a decoded instruction can be. -/

namespace Sys2Proof.Machine

open Host (Outcome)

variable {s t : State} {i : Instr}

@[simp] theorem complete_eq : complete i s = .next (s.record i) := rfl

@[simp] theorem raiseOutcome_eq (k : Status) : raiseOutcome k s = .next (s.raise k) := rfl

/-- A register write that fits is made and the instruction completes. -/
theorem finishWrite_fits {v : Int} (h : s.cfg.fits v = true) (r : Reg) :
    finishWrite i r v s = .next ((s.setReg r v).record i) := by
  simp [finishWrite, h]

/-- A register write that does not fit is not made; the range fault is taken. -/
theorem finishWrite_not_fits {v : Int} (h : s.cfg.fits v = false) (r : Reg) :
    finishWrite i r v s = .next (s.raise (.fault (.valueRange v))) := by
  simp [finishWrite, h]

/-- Everything a register write can answer. -/
theorem finishWrite_cases {r : Reg} {v : Int} (h : finishWrite i r v s = .next t) :
    (s.cfg.fits v = true ∧ t = (s.setReg r v).record i) ∨
    (s.cfg.fits v = false ∧ t = s.raise (.fault (.valueRange v))) := by
  cases hf : s.cfg.fits v with
  | true => rw [finishWrite_fits hf] at h; cases h; exact .inl ⟨rfl, rfl⟩
  | false => rw [finishWrite_not_fits hf] at h; cases h; exact .inr ⟨rfl, rfl⟩

@[simp] theorem withAddress_ok {a : Int} (h : s.cfg.okAddr a = true) (access : Result) :
    withAddress a s access = access := by
  simp [withAddress, h]

@[simp] theorem withAddress_not_ok {a : Int} (h : s.cfg.okAddr a = false) (access : Result) :
    withAddress a s access = .next (s.raise (.fault (.badAddress a))) := by
  simp [withAddress, h]

/-- What the effect of a decoded instruction can leave, and on what grounds. -/
inductive Effect (i : Instr) (s : State) : State → Prop
  /-- It completed and wrote no register and no cell. -/
  | plain (h : i.opcode ≠ .mset) : Effect i s (s.record i)
  /-- It completed with one register write that fits. -/
  | register (r : Reg) (v : Int) (hw : i.written = some r) (hv : s.cfg.fits v = true) :
      Effect i s ((s.setReg r v).record i)
  /-- It is an MSET to a valid address, and completed. -/
  | cell (a : Int) (r : Reg) (hi : i = .mset a r) (ha : s.cfg.okAddr a = true) :
      Effect i s ((s.memWrite a (s.reg r)).record i)
  /-- It is ERROR, which faulted. -/
  | errorFault (hi : i = .error) (hp : s.cfg.errorExec = .fault) : Effect i s (s.raise (.fault .errorOpcode))
  /-- It is ERROR, reported as an unknown opcode. -/
  | errorUnknown (hi : i = .error) (hp : s.cfg.errorExec = .unknown) :
      Effect i s (s.raise (.error (.unknownOpcode (s.cfg.opNum .error))))
  /-- It is MSET or MGET at an invalid address. -/
  | badAddress (a : Int) (ha : s.cfg.okAddr a = false) : Effect i s (s.raise (.fault (.badAddress a)))
  /-- It is MGET of an unset cell. -/
  | unsetLoad (a : Int) (ha : s.cfg.okAddr a = true) (hm : s.memRead a = none) :
      Effect i s (s.raise (.fault (.unsetLoad a)))
  /-- A register write does not fit. -/
  | valueRange (v : Int) (hv : s.cfg.fits v = false) : Effect i s (s.raise (.fault (.valueRange v)))

/-- A register write is one of the effects. -/
theorem Effect.ofFinishWrite {r : Reg} {v : Int} (hw : i.written = some r)
    (h : finishWrite i r v s = .next t) : Effect i s t := by
  rcases finishWrite_cases h with ⟨hv, rfl⟩ | ⟨hv, rfl⟩
  · exact .register r v hw hv
  · exact .valueRange v hv

/-- Everything the effect of an instruction can answer: cite this instead of unfolding `exec`. -/
theorem exec_effect (h : exec i s = .next t) : Effect i s t := by
  cases i with
  | error =>
    simp only [exec, execError] at h
    split at h
    · next hp => cases h; exact .errorFault rfl hp
    · cases h; exact .plain (by simp [Instr.opcode])
    · next hp => cases h; exact .errorUnknown rfl hp
  | noop => cases h; exact .plain (by simp [Instr.opcode])
  | rset reg literal => exact Effect.ofFinishWrite rfl h
  | rcpy src dest => exact Effect.ofFinishWrite rfl h
  | radd accum addend => exact Effect.ofFinishWrite rfl h
  | mset address reg =>
    cases ha : s.cfg.okAddr address with
    | true =>
      simp only [exec, execMset, addrOperand, withAddress_ok ha] at h
      cases h
      exact .cell address reg rfl ha
    | false =>
      simp only [exec, execMset, addrOperand, withAddress_not_ok ha] at h
      cases h
      exact .badAddress address ha
  | mget address reg =>
    cases ha : s.cfg.okAddr address with
    | true =>
      simp only [exec, execMget, addrOperand, withAddress_ok ha] at h
      split at h
      · next hm => cases h; exact .unsetLoad address ha hm
      · exact Effect.ofFinishWrite rfl h
    | false =>
      simp only [exec, execMget, addrOperand, withAddress_not_ok ha] at h
      cases h
      exact .badAddress address ha
  | jilt reg literal target =>
    simp only [exec, execJilt] at h
    split at h
    · exact Effect.ofFinishWrite rfl h
    · cases h; exact .plain (by simp [Instr.opcode])

end Sys2Proof.Machine
end

