-- ==== Sys2Proof/Laws/Fetch.lean ====
section
/-! SUPPORT. What the fetch of a word, of the argument words and of a whole instruction can answer. -/

namespace Sys2Proof.Machine

variable {s t : State}

/-- The fetch of one word where the address is valid and IP can be advanced. -/
theorem fetchWord_got (ha : s.cfg.okAddr s.ip = true) (hf : s.cfg.fits (s.ip + 1) = true) :
    fetchWord s = .got (s.memRead s.ip) (s.withIp (s.ip + 1)) := by
  simp [fetchWord, ha, hf]

/-- The fetch of one word at an invalid address. -/
theorem fetchWord_badAddress (ha : s.cfg.okAddr s.ip = false) :
    fetchWord s = .raised (s.raise (.fault (.badAddress s.ip))) := by
  simp [fetchWord, ha]

/-- The fetch of one word where the increment does not fit. -/
theorem fetchWord_valueRange (ha : s.cfg.okAddr s.ip = true) (hf : s.cfg.fits (s.ip + 1) = false) :
    fetchWord s = .raised (s.raise (.fault (.valueRange (s.ip + 1)))) := by
  simp [fetchWord, ha, hf]

/-- Everything the fetch of one word can answer, for a state and its cell. -/
theorem fetchWord_cases (s : State) :
    (s.cfg.okAddr s.ip = true ∧ s.cfg.fits (s.ip + 1) = true ∧
      fetchWord s = .got (s.memRead s.ip) (s.withIp (s.ip + 1))) ∨
    (s.cfg.okAddr s.ip = true ∧ s.cfg.fits (s.ip + 1) = false ∧
      fetchWord s = .raised (s.raise (.fault (.valueRange (s.ip + 1))))) ∨
    (s.cfg.okAddr s.ip = false ∧ fetchWord s = .raised (s.raise (.fault (.badAddress s.ip)))) := by
  cases ha : s.cfg.okAddr s.ip with
  | true =>
    cases hf : s.cfg.fits (s.ip + 1) with
    | true => exact .inl ⟨rfl, rfl, fetchWord_got ha hf⟩
    | false => exact .inr (.inl ⟨rfl, rfl, fetchWord_valueRange ha hf⟩)
  | false => exact .inr (.inr ⟨rfl, fetchWord_badAddress ha⟩)

/-- Why the fetch of argument word `k` of `n` raised, and in which state. The word was unset,
the increment past it does not fit, or its address is invalid. -/
inductive ArgsRaised (n k : Nat) (s : State) : State → Prop
  | unset (ha : s.cfg.okAddr s.ip = true) (hf : s.cfg.fits (s.ip + 1) = true) (hm : s.memRead s.ip = none) :
      ArgsRaised n k s ((s.withIp (s.ip + 1)).raise (.error (.arityMismatch n k)))
  | valueRange (hf : s.cfg.fits (s.ip + 1) = false) :
      ArgsRaised n k s (s.raise (.fault (.valueRange (s.ip + 1))))
  | badAddress (ha : s.cfg.okAddr s.ip = false) :
      ArgsRaised n k s (s.raise (.fault (.badAddress s.ip)))

/-- Argument fetch that gets its words: as many as were asked for, the ones in memory from IP upward, and IP past them. -/
theorem fetchArgs_got {n r k : Nat} {vs : List Int} (h : fetchArgs n r k s = .got vs t) :
    vs.length = r ∧ t = s.withIp (s.ip + r) ∧ s.canFetch r ∧ s.holds s.ip vs := by
  induction r generalizing s k vs with
  | zero =>
    cases h
    refine ⟨rfl, by simp, ?_, ?_⟩
    · intro j hj; omega
    · intro j v hv; simp at hv
  | succ r ih =>
    rcases fetchWord_cases s with ⟨ha, hf, hw⟩ | ⟨-, -, hw⟩ | ⟨-, hw⟩
    · simp only [fetchArgs, hw] at h
      cases hm : s.memRead s.ip with
      | none => simp [hm] at h
      | some v =>
        simp only [hm] at h
        cases hr : fetchArgs n r (k + 1) (s.withIp (s.ip + 1)) with
        | raised u => simp [hr] at h
        | got ws u =>
          simp only [hr] at h
          cases h
          obtain ⟨hl, rfl, hc, hh⟩ := ih hr
          refine ⟨by simp [hl], ?_, ?_, ?_⟩
          · simp only [State.withIp_withIp, State.withIp_ip]; congr 1; push_cast; omega
          · intro j hj
            cases j with
            | zero => simpa using ⟨ha, hf⟩
            | succ j =>
              have := hc j (by omega)
              simpa [add_assoc, add_comm, add_left_comm] using this
          · intro j w hw
            cases j with
            | zero => simp at hw; subst hw; simpa using hm
            | succ j =>
              have := hh j w (by simpa using hw)
              simpa [add_assoc, add_comm, add_left_comm] using this
    · simp [fetchArgs, hw] at h
    · simp [fetchArgs, hw] at h

/-- Argument fetch where every word asked for is there. -/
theorem fetchArgs_of_holds {n r k : Nat} {vs : List Int} (hl : vs.length = r) (hc : s.canFetch r)
    (hh : s.holds s.ip vs) : fetchArgs n r k s = .got vs (s.withIp (s.ip + r)) := by
  induction r generalizing s k vs with
  | zero => simp [List.length_eq_zero_iff.1 hl, fetchArgs]
  | succ r ih =>
    obtain ⟨v, ws, rfl⟩ : ∃ v ws, vs = v :: ws := by
      cases vs with
      | nil => simp at hl
      | cons v ws => exact ⟨v, ws, rfl⟩
    obtain ⟨ha, hf⟩ := hc 0 (by omega)
    simp only [Nat.cast_zero, add_zero] at ha hf
    have hv : s.memRead s.ip = some v := by simpa using hh 0 v rfl
    have hrest := ih (s := (s.withIp (s.ip + 1))) (k := k + 1) (vs := ws) (by simpa using hl)
      (fun j hj => by
        have := hc (j + 1) (by omega)
        simpa [add_assoc, add_comm, add_left_comm] using this)
      (fun j w hw => by
        have := hh (j + 1) w (by simpa using hw)
        simpa [add_assoc, add_comm, add_left_comm] using this)
    simp only [fetchArgs, fetchWord_got ha hf, hv, hrest, State.withIp_withIp, State.withIp_ip]
    congr 2
    push_cast
    omega

/-- Argument fetch that raises: it raised at some word `j` of those asked for, all before it being set. -/
theorem fetchArgs_raised {n r k : Nat} (h : fetchArgs n r k s = .raised t) :
    ∃ j, j < r ∧ s.canFetch j ∧ (∀ l : Nat, l < j → s.memRead (s.ip + l) ≠ none) ∧
      ArgsRaised n (k + j) (s.withIp (s.ip + j)) t := by
  induction r generalizing s k with
  | zero => simp [fetchArgs] at h
  | succ r ih =>
    have none0 : s.canFetch 0 := fun j hj => by omega
    have before0 : ∀ l : Nat, l < 0 → s.memRead (s.ip + l) ≠ none := fun l hl => by omega
    have ip0 : ((s.withIp (s.ip + ((0 : Nat) : Int))) : State) = s := by simp
    rcases fetchWord_cases s with ⟨ha, hf, hw⟩ | ⟨-, hf, hw⟩ | ⟨ha, hw⟩
    · simp only [fetchArgs, hw] at h
      cases hm : s.memRead s.ip with
      | none =>
        simp only [hm] at h
        cases h
        refine ⟨0, by omega, none0, before0, ?_⟩
        rw [ip0]
        exact .unset ha hf hm
      | some v =>
        simp only [hm] at h
        cases hr : fetchArgs n r (k + 1) (s.withIp (s.ip + 1)) with
        | got ws u => simp [hr] at h
        | raised u =>
          simp only [hr] at h
          cases h
          obtain ⟨j, hj, hc, hb, hra⟩ := ih hr
          refine ⟨j + 1, by omega, ?_, ?_, ?_⟩
          · intro l hl
            cases l with
            | zero => simpa using ⟨ha, hf⟩
            | succ l =>
              have := hc l (by omega)
              simpa [add_assoc, add_comm, add_left_comm] using this
          · intro l hl
            cases l with
            | zero => simp [hm]
            | succ l =>
              have := hb l (by omega)
              simpa [add_assoc, add_comm, add_left_comm] using this
          · have e : k + 1 + j = k + (j + 1) := by omega
            have e2 : s.ip + 1 + (j : Int) = s.ip + ((j + 1 : Nat) : Int) := by push_cast; omega
            rw [e] at hra
            simpa only [State.withIp_withIp, State.withIp_ip, e2] using hra
    · simp only [fetchArgs, hw] at h
      cases h
      refine ⟨0, by omega, none0, before0, ?_⟩
      rw [ip0]
      exact .valueRange hf
    · simp only [fetchArgs, hw] at h
      cases h
      refine ⟨0, by omega, none0, before0, ?_⟩
      rw [ip0]
      exact .badAddress ha

/-- Argument fetch where word `m` of those asked for is the first unset one. -/
theorem fetchArgs_unset {n r k m : Nat} (hm : m < r) (hc : s.canFetch (m + 1))
    (hb : ∀ j : Nat, j < m → s.memRead (s.ip + j) ≠ none) (hu : s.memRead (s.ip + m) = none) :
    fetchArgs n r k s = .raised ((s.withIp (s.ip + m + 1)).raise (.error (.arityMismatch n (k + m)))) := by
  obtain ⟨r, rfl⟩ : ∃ q, r = q + 1 := ⟨r - 1, by omega⟩
  obtain ⟨ha, hf⟩ := hc 0 (by omega)
  simp only [Nat.cast_zero, add_zero] at ha hf
  induction m generalizing s r k with
  | zero =>
    have hu' : s.memRead s.ip = none := by simpa using hu
    simp [fetchArgs, fetchWord_got ha hf, hu']
  | succ m ih =>
    obtain ⟨v, hv⟩ := Option.ne_none_iff_exists'.1 (by simpa using hb 0 (by omega) : s.memRead s.ip ≠ none)
    obtain ⟨r, rfl⟩ : ∃ q, r = q + 1 := ⟨r - 1, by omega⟩
    have hc' : State.canFetch (s.withIp (s.ip + 1)) (m + 1) := fun j hj => by
      have := hc (j + 1) (by omega)
      simpa [add_assoc, add_comm, add_left_comm] using this
    obtain ⟨ha', hf'⟩ := hc' 0 (by omega)
    have hrest := ih (s := s.withIp (s.ip + 1)) (k := k + 1) hc'
      (fun j hj => by
        have := hb (j + 1) (by omega)
        simpa [add_assoc, add_comm, add_left_comm] using this)
      (by simpa [add_assoc, add_comm, add_left_comm] using hu) r (by omega)
      (by simpa using ha') (by simpa using hf')
    rw [fetchArgs, fetchWord_got ha hf]
    simp only [hv, hrest, State.withIp_withIp, State.withIp_ip]
    rw [show s.ip + 1 + (m : Int) + 1 = s.ip + ((m + 1 : Nat) : Int) + 1 by push_cast; omega,
      show k + 1 + m = k + (m + 1) by omega]

/-- Argument fetch whose first `m` words are set and whose fetch of word `m` raises: it raises so. -/
theorem fetchArgs_raises {n r k m : Nat} (hm : m < r) (hc : s.canFetch m)
    (hb : ∀ j : Nat, j < m → s.memRead (s.ip + j) ≠ none) (hw : fetchWord (s.withIp (s.ip + m)) = .raised t) :
    fetchArgs n r k s = .raised t := by
  induction m generalizing s k r with
  | zero =>
    obtain ⟨r, rfl⟩ := Nat.exists_eq_succ_of_ne_zero (by omega : r ≠ 0)
    simp only [Nat.cast_zero, add_zero, State.withIp_self] at hw
    simp only [fetchArgs, hw]
  | succ m ih =>
    obtain ⟨r, rfl⟩ := Nat.exists_eq_succ_of_ne_zero (by omega : r ≠ 0)
    obtain ⟨ha, hf⟩ := hc 0 (by omega)
    simp only [Nat.cast_zero, add_zero] at ha hf
    obtain ⟨v, hv⟩ := Option.ne_none_iff_exists'.mp (hb 0 (by omega))
    simp only [Nat.cast_zero, add_zero] at hv
    have hrest := ih (s := s.withIp (s.ip + 1)) (k := k + 1) (r := r) (by omega)
      (fun j hj => by
        have := hc (j + 1) (by omega)
        simpa [add_assoc, add_comm, add_left_comm] using this)
      (fun j hj => by
        have := hb (j + 1) (by omega)
        simpa [add_assoc, add_comm, add_left_comm] using this)
      (by simpa [add_assoc, add_comm, add_left_comm] using hw)
    simp only [fetchArgs, fetchWord_got ha hf, hv, hrest]

/-- The fetch of an instruction whose opcode word is there and decodes: what is left is the argument words. -/
theorem fetchInstr_opcode {w : Int} {op : Opcode} (hc : s.canFetch 1) (hm : s.memRead s.ip = some w)
    (hd : s.cfg.opDec w = some op) :
    fetchInstr s =
      match fetchArgs op.arity op.arity 0 (s.withIp (s.ip + 1)) with
      | .raised u => .raised u
      | .got v u =>
        match u.cfg.decodeArgs op v with
        | .error e => .raised (u.raise (decodeStatus e))
        | .ok i => .got i u := by
  obtain ⟨ha, hf⟩ := hc 0 (by omega)
  simp only [Nat.cast_zero, add_zero] at ha hf
  cases hr : fetchArgs op.arity op.arity 0 (s.withIp (s.ip + 1)) with
  | raised u => simp only [fetchInstr, fetchWord_got ha hf, hm, State.withIp_cfg, hd, hr]
  | got v u =>
    cases hv : u.cfg.decodeArgs op v <;> simp only [fetchInstr, fetchWord_got ha hf, hm, State.withIp_cfg, hd, hr, hv]

end Sys2Proof.Machine
end

