-- ==== Sys2Proof/Laws/PerInstr.lean ====
section
/-! SUPPORT. Statements made per instruction about the instruction as syntax. Family `EncodeShape`: the words of an
instruction are its opcode word and as many argument words as its declared arity, so it is 1, 3 or 4 words long (R80, R81,
R97), and every integer operand is one of them as it stands (R88). -/

namespace Sys2Proof.Laws.EncodeShape

/-- What the family says of one instruction. -/
def Statement (i : Instr) : Prop :=
  ∀ c : Config, (encode c i).head? = some (c.opNum i.opcode) ∧ (encode c i).length = i.length ∧
    (i.length = 1 ∨ i.length = 3 ∨ i.length = 4) ∧ ∀ v ∈ i.rawOperands, v ∈ encode c i

theorem error : Statement .error := fun _ => ⟨rfl, rfl, .inl rfl, by simp [Instr.rawOperands]⟩

theorem noop : Statement .noop := fun _ => ⟨rfl, rfl, .inl rfl, by simp [Instr.rawOperands]⟩

theorem rset (reg : Reg) (literal : Int) : Statement (.rset reg literal) :=
  fun _ => ⟨rfl, rfl, .inr (.inl rfl), by simp [Instr.rawOperands, encode, encodeArgs]⟩

theorem rcpy (src dest : Reg) : Statement (.rcpy src dest) :=
  fun _ => ⟨rfl, rfl, .inr (.inl rfl), by simp [Instr.rawOperands]⟩

theorem radd (accum addend : Reg) : Statement (.radd accum addend) :=
  fun _ => ⟨rfl, rfl, .inr (.inl rfl), by simp [Instr.rawOperands]⟩

theorem mset (address : Int) (reg : Reg) : Statement (.mset address reg) :=
  fun _ => ⟨rfl, rfl, .inr (.inl rfl), by simp [Instr.rawOperands, encode, encodeArgs]⟩

theorem mget (address : Int) (reg : Reg) : Statement (.mget address reg) :=
  fun _ => ⟨rfl, rfl, .inr (.inl rfl), by simp [Instr.rawOperands, encode, encodeArgs]⟩

theorem jilt (reg : Reg) (literal target : Int) : Statement (.jilt reg literal target) :=
  fun _ => ⟨rfl, rfl, .inr (.inr rfl), by simp [Instr.rawOperands, encode, encodeArgs]⟩

end Sys2Proof.Laws.EncodeShape
end

