-- ==== Sys2Proof/Laws/Step.lean ====
section
/-! SUPPORT. What the fetch of an instruction and the step can answer: cite `fetchInstr_got`, `fetchInstr_raised` and
`step_cases` instead of unfolding them. -/

namespace Sys2Proof.Machine

variable {s t u : State} {i : Instr}

/-- A fetch that gets an instruction read the instruction's words from IP upward and moved IP past them. -/
theorem fetchInstr_got (h : fetchInstr s = .got i u) :
    u = s.withIp (s.ip + i.length) ∧ s.holds s.ip (encode s.cfg i) ∧ s.canFetch i.length ∧
      s.cfg.opDec (s.cfg.opNum i.opcode) = some i.opcode := by
  unfold fetchInstr at h
  rcases fetchWord_cases s with ⟨ha, hf, hw⟩ | ⟨-, -, hw⟩ | ⟨-, hw⟩
  · rw [hw] at h
    cases hm : s.memRead s.ip with
    | none => simp [hm] at h
    | some w =>
      simp only [hm] at h
      cases hd : s.cfg.opDec w with
      | none => simp [hd] at h
      | some op =>
        simp only [State.withIp_cfg, hd] at h
        cases hr : fetchArgs op.arity op.arity 0 (s.withIp (s.ip + 1)) with
        | raised v => simp [hr] at h
        | got v x =>
          simp only [hr] at h
          obtain ⟨-, rfl, hc, hh⟩ := fetchArgs_got hr
          cases hv : s.cfg.decodeArgs op v with
          | error e => simp [hv] at h
          | ok j =>
            simp only [State.withIp_cfg, hv] at h
            cases h
            obtain ⟨ho, he⟩ := Config.decodeArgs_ok hv
            have hn := Config.opNum_of_opDec hd
            refine ⟨?_, ?_, ?_, ?_⟩
            · simp only [Instr.length, ho, State.withIp_withIp, State.withIp_ip]; congr 1; push_cast; omega
            · intro k x hx
              cases k with
              | zero =>
                simp only [encode, List.getElem?_cons_zero, Option.some.injEq] at hx
                subst hx
                simpa [ho, hn] using hm
              | succ k =>
                have := hh k x (by simpa [encode, he] using hx)
                simpa [add_assoc, add_comm, add_left_comm] using this
            · intro k hk
              cases k with
              | zero => simpa using ⟨ha, hf⟩
              | succ k =>
                have := hc k (by simp only [Instr.length, ho] at hk; omega)
                simpa [add_assoc, add_comm, add_left_comm] using this
            · rw [ho, hn, hd]
  · simp [hw] at h
  · simp [hw] at h

/-- Why a fetch raised, and in which state. -/
inductive FetchRaised (s : State) : State → Prop
  /-- The opcode fetch is at an invalid address. -/
  | badAddress (ha : s.cfg.okAddr s.ip = false) : FetchRaised s (s.raise (.fault (.badAddress s.ip)))
  /-- The increment past the opcode word does not fit. -/
  | valueRange (hf : s.cfg.fits (s.ip + 1) = false) : FetchRaised s (s.raise (.fault (.valueRange (s.ip + 1))))
  /-- The opcode word is unset. -/
  | halted (hc : s.canFetch 1) (hm : s.memRead s.ip = none) :
      FetchRaised s ((s.withIp (s.ip + 1)).raise .halted)
  /-- The opcode word is no opcode's number. -/
  | unknownOpcode (w : Int) (hc : s.canFetch 1) (hm : s.memRead s.ip = some w) (hd : s.cfg.opDec w = none) :
      FetchRaised s ((s.withIp (s.ip + 1)).raise (.error (.unknownOpcode w)))
  /-- Argument word `k` could not be had. -/
  | argument (op : Opcode) (k : Nat) (hc : s.canFetch (k + 1)) (hm : s.memRead s.ip = some (s.cfg.opNum op))
      (hk : k < op.arity) (hb : ∀ j : Nat, j < k → s.memRead (s.ip + 1 + j) ≠ none) (t : State)
      (hr : ArgsRaised op.arity k (s.withIp (s.ip + 1 + k)) t) : FetchRaised s t
  /-- REG word `k` names no register. -/
  | badRegister (op : Opcode) (v : List Int) (k : Nat) (w : Int) (hc : s.canFetch (op.arity + 1))
      (hh : s.holds s.ip (s.cfg.opNum op :: v)) (hl : v.length = op.arity) (hk : op.kinds[k]? = some .reg)
      (hv : v[k]? = some w) (hd : s.cfg.regDec w = none) :
      FetchRaised s ((s.withIp (s.ip + 1 + op.arity)).raise (.fault (.badRegister w)))

/-- Everything a raising fetch can leave. -/
theorem fetchInstr_raised (h : fetchInstr s = .raised t) : FetchRaised s t := by
  unfold fetchInstr at h
  rcases fetchWord_cases s with ⟨ha, hf, hw⟩ | ⟨-, hf, hw⟩ | ⟨ha, hw⟩
  · have hc1 : s.canFetch 1 := fun k hk => by
      obtain rfl : k = 0 := by omega
      simpa using ⟨ha, hf⟩
    rw [hw] at h
    cases hm : s.memRead s.ip with
    | none => simp only [hm] at h; cases h; exact .halted hc1 hm
    | some w =>
      simp only [hm] at h
      cases hd : s.cfg.opDec w with
      | none => simp only [State.withIp_cfg, hd] at h; cases h; exact .unknownOpcode w hc1 hm hd
      | some op =>
        have hn := Config.opNum_of_opDec hd
        simp only [State.withIp_cfg, hd] at h
        have shift : ∀ n, State.canFetch (s.withIp (s.ip + 1)) n → s.canFetch (n + 1) := fun n hc k hk => by
          cases k with
          | zero => simpa using ⟨ha, hf⟩
          | succ k =>
            have := hc k (by omega)
            simpa [add_assoc, add_comm, add_left_comm] using this
        cases hr : fetchArgs op.arity op.arity 0 (s.withIp (s.ip + 1)) with
        | raised v =>
          simp only [hr] at h
          cases h
          obtain ⟨j, hj, hc, hb, hra⟩ := fetchArgs_raised hr
          rw [Nat.zero_add] at hra
          exact .argument op j (shift j hc) (by rw [hm, hn]) hj hb _ hra
        | got v x =>
          simp only [hr] at h
          obtain ⟨hl, rfl, hc, hh⟩ := fetchArgs_got hr
          cases hv : s.cfg.decodeArgs op v with
          | ok j => simp [hv] at h
          | error e =>
            simp only [State.withIp_cfg, hv] at h
            cases h
            obtain ⟨k, y, rfl, hk, hy, hd'⟩ := Config.decodeArgs_error hl hv
            refine .badRegister op v k y (shift _ hc) ?_ hl hk hy hd'
            intro l z hz
            cases l with
            | zero => simp at hz; subst hz; simpa [hn] using hm
            | succ l =>
              have := hh l z (by simpa using hz)
              simpa [add_assoc, add_comm, add_left_comm] using this
  · rw [hw] at h; cases h; exact .valueRange hf
  · rw [hw] at h; cases h; exact .badAddress ha

/-- A terminal status: the step answers the state as it stands. -/
theorem step_terminal (h : s.status.terminal = true) : step s = .next s := by
  simp [step, stepOnce, h]

/-- Outside the terminal statuses the step is the common part and the effect, from the resumed state. -/
theorem step_performed (h : s.status.terminal = false) : step s = stepCore s.resume := by
  simp [step, stepOnce, h]

/-- Everything a step can be. -/
theorem step_cases (h : step s = .next t) :
    (s.status.terminal = true ∧ t = s) ∨
    (s.status.terminal = false ∧ FetchRaised s.resume t) ∨
    (s.status.terminal = false ∧ ∃ i u, fetchInstr s.resume = .got i u ∧ exec i u = .next t) := by
  cases hs : s.status.terminal with
  | true => rw [step_terminal hs] at h; cases h; exact .inl ⟨rfl, rfl⟩
  | false =>
    rw [step_performed hs, stepCore] at h
    cases hf : fetchInstr s.resume with
    | raised v => simp only [hf] at h; cases h; exact .inr (.inl ⟨rfl, fetchInstr_raised hf⟩)
    | got i u => simp only [hf] at h; exact .inr (.inr ⟨rfl, i, u, rfl, h⟩)

end Sys2Proof.Machine
end

