-- ==== Sys2Proof/Tests/Slice0.lean ====
section
/-! SUPPORT. The model's own tests. The expected results are from `95_test_vectors.md` (V1 to V8, TN to TL) and from the
encoding tables of `30_encoding.md`. The last part meets the hypotheses of every obligation that has some. -/

namespace Sys2Proof.Tests

open Sys2Proof.Machine

/-! ## Helpers -/

/-- A running session with the registers IP, R1, R2, R3 and runs of words at given addresses. -/
def sessionOf (c : Config) (ip r1 r2 r3 : Int) (cells : List (Nat × List Int)) : State :=
  { cfg := c, ip := ip, r1 := r1, r2 := r2, r3 := r3,
    mem := cells.foldl (fun m e => m.writeAll e.1 e.2) [], status := .running, last := none }

/-- The same under the default parameters. -/
def session (ip r1 r2 r3 : Int) (cells : List (Nat × List Int)) : State := sessionOf Config.default ip r1 r2 r3 cells

/-- Narrow parameters: values of 8 bits, addresses of 6 bits. -/
def narrow : Config := { Config.default with valueWidth := some 8, addrWidth := some 6 }

/-- Another numbering that meets R6. -/
def shuffled : Config :=
  { Config.default with
    opnum := { error := 9, noop := 7, rset := 0, rcpy := 40, radd := 3, mset := 2, mget := 1, jilt := 100 }
    regnum := { ip := 3, r1 := 0, r2 := 1, r3 := 2 } }

/-- The next state, where there is one. -/
def nextOf {α : Type} : Host.Outcome α Fault Refusal → Option α
  | .next t => some t
  | .fault _ => none
  | .refused _ => none

/-- The refusal, where there is one. -/
def refusalOf {α : Type} : Host.Outcome α Fault Refusal → Option Refusal
  | .next _ => none
  | .fault _ => none
  | .refused r => some r

/-- The registers `[IP, R1, R2, R3]`. -/
def registers (s : State) : List Int := [s.ip, s.r1, s.r2, s.r3]

/-- Registers and status after one step. -/
def after (s : State) : Option (List Int × Status) := (nextOf (step s)).map fun t => (registers t, t.status)

/-- The cell at `a` after one step. -/
def cellAfter (s : State) (a : Nat) : Option Cell := (nextOf (step s)).map fun t => t.mem.read a

/-- The record after one step. -/
def lastAfter (s : State) : Option (Option Instr) := (nextOf (step s)).map fun t => t.last

/-- Registers and status at the end of a run, with its ticks. -/
def ranTo (o : Host.Outcome RunRecord Fault Refusal) : Option (List Int × Status × Nat) :=
  (nextOf o).map fun r => (registers r.final, r.final.status, r.ticks)

/-- Whether a list of words is refused, and why. -/
def rejects (c : Config) (ws : List Int) : Option DecodeError :=
  match decode c ws with
  | .ok _ => none
  | .error e => some e

/-- The instruction a list of words begins with. -/
def reads (c : Config) (ws : List Int) : Option Instr :=
  match decode c ws with
  | .ok (i, _) => some i
  | .error _ => none

/-- The image of a text, with the parse errors. -/
def imageOf (text : String) : Option (List Int × List Report) :=
  match assemble Config.default text.toList with
  | .ok a => some (a.image, a.parseErrors)
  | .error _ => none

/-! ## Decoding and encoding: words from R83, R90, V4 -/

theorem test_decode_error : reads Config.default [0] = some .error := by decide
theorem test_decode_noop : reads Config.default [1] = some .noop := by decide
theorem test_decode_rset : reads Config.default [2, 1, 5] = some (.rset .r1 5) := by decide
theorem test_decode_rcpy : reads Config.default [3, 0, 3] = some (.rcpy .ip .r3) := by decide
theorem test_decode_radd : reads Config.default [4, 1, 2] = some (.radd .r1 .r2) := by decide
theorem test_decode_mset : reads Config.default [5, 100, 1] = some (.mset 100 .r1) := by decide
theorem test_decode_mget : reads Config.default [6, 100, 2] = some (.mget 100 .r2) := by decide
theorem test_decode_jilt : reads Config.default [7, 2, 5, 0] = some (.jilt .r2 5 0) := by decide

theorem test_encode :
    encode Config.default .error = [0] ∧ encode Config.default .noop = [1] ∧
    encode Config.default (.rset .r1 5) = [2, 1, 5] ∧ encode Config.default (.rcpy .ip .r3) = [3, 0, 3] ∧
    encode Config.default (.radd .r1 .r2) = [4, 1, 2] ∧ encode Config.default (.mset 100 .r1) = [5, 100, 1] ∧
    encode Config.default (.mget 100 .r2) = [6, 100, 2] ∧ encode Config.default (.jilt .r2 5 0) = [7, 2, 5, 0] := by
  decide

/-- R93: the words on either side of the eight numbers. -/
theorem test_reject_unknown_opcode :
    rejects Config.default [8] = some (.unknownOpcode 8) ∧ rejects Config.default [-1, 1, 1] = some (.unknownOpcode (-1)) := by
  decide

/-- R95, TC7: the lowest bad REG word is named. -/
theorem test_reject_bad_register :
    rejects Config.default [3, 5, 9] = some (.badRegister 5) ∧ rejects Config.default [3, 1, 9] = some (.badRegister 9) ∧
    rejects Config.default [5, 100, -1] = some (.badRegister (-1)) := by decide

theorem test_reject_short :
    rejects Config.default [] = some .noWord ∧ rejects Config.default [7, 1, 5] = some (.arityMismatch 3 2) := by decide

/-- R6: under another numbering the same words read otherwise. -/
theorem test_decode_shuffled :
    reads shuffled [3, 0, 2] = some (.radd .r1 .r3) ∧ rejects shuffled [4] = some (.unknownOpcode 4) := by decide

/-- Log 10: `RSET R1 -1` with 32-bit cells, and the ERROR word alone. -/
theorem test_table_word :
    decodeTableWord 96 (2 + 1 * 2 ^ 32 + (2 ^ 32 - 1) * 2 ^ 64) = some (.rset .r1 (-1)) ∧
    decodeTableWord 32 0 = some .error ∧ decodeTableWord 8 1 = some .noop ∧ decodeTableWord 32 8 = none := by decide

theorem test_fetch_word :
    lastAfter (State.reset.withFetchWord 96 (2 + 1 * 2 ^ 32 + 5 * 2 ^ 64)) = some (some (.rset .r1 5)) := by decide

/-! ## Well-formedness: a term each check refuses -/

theorem test_wf_default : Config.default.wellFormed = true ∧ shuffled.wellFormed = true ∧ narrow.wellFormed = true := by
  decide
theorem test_wf_refuses_equal_opcodes :
    Config.wellFormed { Config.default with opnum := { OpNum.default with jilt := 6 } } = false := by decide
theorem test_wf_refuses_equal_registers :
    Config.wellFormed { Config.default with regnum := { ip := 0, r1 := 1, r2 := 1, r3 := 3 } } = false := by decide
theorem test_wf_refuses_register_number_4 :
    Config.wellFormed { Config.default with regnum := { ip := 0, r1 := 1, r2 := 2, r3 := 4 } } = false := by decide
theorem test_wf_refuses_width_0 :
    Config.wellFormed { Config.default with valueWidth := some 0 } = false := by decide
theorem test_wf_refuses_wide_literal :
    Instr.wellFormed narrow (.rset .r1 128) = false ∧ Instr.wellFormed narrow (.rset .r1 (-128)) = true ∧
    Instr.wellFormed narrow (.jilt .r1 0 (-129)) = false := by decide
theorem test_memory_wf_refuses_disorder : ¬ Memory.wf [(3, 1), (3, 2)] ∧ Memory.wf [(3, 1), (4, 2)] := by decide

/-! ## One step of each instruction -/

/-- TN1. -/
theorem test_noop : after (session 4 9 0 0 [(4, [1])]) = some ([5, 9, 0, 0], .running) := by decide
/-- TN2. -/
theorem test_error : after (session 0 0 0 0 [(0, [0])]) = some ([1, 0, 0, 0], .fault .errorOpcode) := by decide
/-- V2, with `ERROR_EXEC = noop`. -/
theorem test_error_as_noop :
    after (sessionOf { Config.default with errorExec := .noop } 0 0 0 0 [(0, [0, 1])]) = some ([1, 0, 0, 0], .running) := by
  decide
/-- TS3. -/
theorem test_rset_ip : after (session 5 1 2 3 [(5, [2, 0, 20])]) = some ([20, 1, 2, 3], .running) := by decide
/-- TS5: all three words are fetched first. -/
theorem test_rset_bad_register :
    after (session 0 0 0 0 [(0, [2, 4, 1])]) = some ([3, 0, 0, 0], .fault (.badRegister 4)) := by decide
/-- TC1: source first, destination second. -/
theorem test_rcpy : after (session 10 7 0 0 [(10, [3, 1, 2])]) = some ([13, 7, 7, 0], .running) := by decide
/-- TC3: IP reads as advanced. -/
theorem test_rcpy_from_ip : after (session 10 0 0 0 [(10, [3, 0, 3])]) = some ([13, 0, 0, 13], .running) := by decide
/-- TA6. -/
theorem test_radd_ip_ip : after (session 10 0 0 0 [(10, [4, 0, 0])]) = some ([26, 0, 0, 0], .running) := by decide
/-- TA8: exact at `W` unbounded, a fault at `W = 64`. -/
theorem test_radd_no_wrap :
    after (session 0 9223372036854775807 1 0 [(0, [4, 1, 2])]) =
      some ([3, 9223372036854775808, 1, 0], .running) ∧
    after (sessionOf { Config.default with valueWidth := some 64 } 0 9223372036854775807 1 0 [(0, [4, 1, 2])]) =
      some ([3, 9223372036854775807, 1, 0], .fault (.valueRange 9223372036854775808)) := by decide
/-- TM3: a store into its own address word. -/
theorem test_mset_own_word :
    after (session 3 0 77 0 [(3, [5, 4, 2])]) = some ([6, 0, 77, 0], .running) ∧
    cellAfter (session 3 0 77 0 [(3, [5, 4, 2])]) 4 = some (some 77) := by decide
/-- TM7: the register is checked before the address. -/
theorem test_mset_order :
    after (session 3 42 0 0 [(3, [5, -1, 7])]) = some ([6, 42, 0, 0], .fault (.badRegister 7)) ∧
    after (session 3 42 0 0 [(3, [5, -1, 1])]) = some ([6, 42, 0, 0], .fault (.badAddress (-1))) := by decide
/-- TG3: an unset cell is not zero. -/
theorem test_mget_unset :
    after (session 6 0 5 0 [(6, [6, 100, 2])]) = some ([9, 0, 5, 0], .fault (.unsetLoad 100)) := by decide
/-- TG5: a jump through memory. -/
theorem test_mget_ip : after (session 6 0 0 0 [(6, [6, 100, 0]), (100, [30])]) = some ([30, 0, 0, 0], .running) := by decide
/-- TJ2, TJ6: strict, and signed. -/
theorem test_jilt :
    after (session 6 0 5 0 [(6, [7, 2, 5, 0])]) = some ([10, 0, 5, 0], .running) ∧
    after (session 6 (-4) 0 0 [(6, [7, 1, -3, 50])]) = some ([50, -4, 0, 0], .running) := by decide
/-- TJ8: IP as the register compared. -/
theorem test_jilt_ip : after (session 6 0 0 0 [(6, [7, 0, 11, 2])]) = some ([2, 0, 0, 0], .running) := by decide

/-! ## Fetch, halting, errors -/

/-- TE1, TE11. -/
theorem test_halt :
    after (session 9 1 2 3 []) = some ([10, 1, 2, 3], .halted) ∧
    after { session 10 1 2 3 [(10, [1])] with status := .halted } = some ([10, 1, 2, 3], .halted) := by decide
/-- TE2, TE3. -/
theorem test_unknown_opcode :
    after (session 0 0 0 0 [(0, [8])]) = some ([1, 0, 0, 0], .error (.unknownOpcode 8)) ∧
    after (session 0 0 0 0 [(0, [-1])]) = some ([1, 0, 0, 0], .error (.unknownOpcode (-1))) := by decide
/-- TE7, TE9. -/
theorem test_arity_mismatch :
    after (session 0 0 0 0 [(0, [7, 1, 5])]) = some ([4, 0, 0, 0], .error (.arityMismatch 3 2)) ∧
    after (session 0 0 0 0 [(0, [2]), (2, [5])]) = some ([2, 0, 0, 0], .error (.arityMismatch 2 0)) := by decide
/-- TE10. -/
theorem test_bad_fetch : after (session (-3) 0 0 0 []) = some ([-3, 0, 0, 0], .fault (.badAddress (-3))) := by decide
/-- R124: with 6-bit addresses the argument at 64 is no address. -/
theorem test_top_of_memory :
    after (sessionOf narrow 63 0 0 0 [(63, [2])]) = some ([64, 0, 0, 0], .fault (.badAddress 64)) ∧
    after (sessionOf narrow 63 0 0 0 [(63, [1])]) = some ([64, 0, 0, 0], .running) := by decide

/-! ## Run, load, text, observation -/

/-- TB3, TB4. -/
theorem test_run :
    ranTo (run 3 (session 0 0 0 0 [(0, [1, 1, 1])])) = some ([3, 0, 0, 0], .budgetExceeded, 3) ∧
    ranTo (run 5 (session 0 0 0 0 [(0, [1, 1, 1])])) = some ([4, 0, 0, 0], .halted, 4) := by decide
/-- TB1 and a negative budget. -/
theorem test_run_nothing :
    ranTo (run 0 State.reset) = some ([0, 0, 0, 0], .budgetExceeded, 0) ∧
    ranTo (run (-5) State.reset) = some ([0, 0, 0, 0], .budgetExceeded, 0) := by decide
/-- TL2: the tail of the old program stays. -/
theorem test_load_overlays :
    (nextOf ((session 10 1 2 3 [(0, [2, 1, 1, 2, 2, 2])]).load [2, 1, 9] 0)).map (fun t => (registers t, t.mem.map Prod.snd)) =
      some ([0, 0, 0, 0], [2, 1, 9, 2, 2, 2]) := by decide
theorem test_load_refuses :
    refusalOf (firstLoad Config.default [1] (-1)) = some (.badOffset (-1)) ∧
    refusalOf (firstLoad narrow [1, 1] 63) = some (.imageTooLong 63 2) ∧
    refusalOf (firstLoad narrow [128] 0) = some (.wordOutOfRange 128) := by decide
/-- V2, V4: R100's three spellings, and the unknown mnemonic. -/
theorem test_assemble :
    imageOf "RSET R1 5\nRSET R1,5\n , \nRSET  R1, 5" = some ([2, 1, 5, 2, 1, 5, 2, 1, 5], []) ∧
    imageOf "FOO 1 2\nNOOP" = some ([0, 1], [.parseError "FOO".toList]) := by decide
/-- R104: malformed arguments and a wrong count define no image. -/
theorem test_assemble_refuses :
    imageOf "RSET 1 5" = none ∧ imageOf "RSET R1" = none ∧ imageOf "MSET R1 R1" = none ∧ imageOf "NOOP 1" = none := by decide
/-- R108's example, and a negative number. -/
theorem test_disassemble :
    disassemble (.jilt .r2 5 0) = "JILT R2 5 0".toList ∧ disassemble (.rset .ip (-17)) = "RSET IP -17".toList := by decide
/-- Log 16: the placeholder for an unknown opcode, and for argument words too few, too many or bad. -/
theorem test_disassemble_placeholder :
    disassembleWords Config.default 8 [] = Config.disasmPlaceholder ∧
    disassembleWords Config.default 2 [1] = Config.disasmPlaceholder ∧
    disassembleWords Config.default 1 [7] = Config.disasmPlaceholder ∧
    disassembleWords Config.default 2 [4, 5] = Config.disasmPlaceholder := ⟨rfl, rfl, rfl, rfl⟩
/-- R41: the name stands beside every cell whose value is an opcode's number. -/
theorem test_dump :
    (session 0 0 0 0 [(5, [2]), (3, [9])]).dump =
      [{ address := 3, rawValue := 9, opcodeName := [] }, { address := 5, rawValue := 2, opcodeName := "RSET".toList }] := by
  decide

/-! ## Witnesses

One theorem per obligation with hypotheses: concrete parameters, states and operands that meet all of them, and a value for
each clause at the edge of its range. -/

/-- A check, cell by cell, that memory holds given words. -/
theorem holds_of_check {s : State} {a : Int} {ws : List Int}
    (h : ∀ k < ws.length, s.memRead (a + k) = ws[k]?) : s.holds a ws := by
  intro k v hv
  have hk : k < ws.length := by
    by_contra hge
    rw [List.getElem?_eq_none (by omega)] at hv
    cases hv
  rw [h k hk, hv]

/-- Eight-bit values, every address. -/
def byteValues : Config := { Config.default with valueWidth := some 8 }

theorem witness_OpcodeDecoderIsWordEquality :
    shuffled.wellFormed = true ∧ shuffled.opNum .jilt = 100 ∧ (∀ op, shuffled.opNum op ≠ 101) ∧
    Config.default.wellFormed = true ∧ (∀ op, Config.default.opNum op ≠ 8) ∧ (-1 : Int) < 0 := by
  refine ⟨by decide, by decide, ?_, by decide, ?_, by decide⟩ <;> (intro op; cases op <;> decide)

theorem witness_RegisterWordsAreZeroToThree :
    shuffled.wellFormed = true ∧ shuffled.regDec (-1) = none ∧ shuffled.regDec 4 = none ∧
    shuffled.regDec 0 = some .r1 ∧ shuffled.regDec 3 = some .ip := by decide

theorem witness_DecodeOfEncodeIsIdentity : shuffled.wellFormed = true ∧ narrow.wellFormed = true := by decide

theorem witness_EncodeOfDecodeIsIdentity :
    decode shuffled [100, 3, -5, 0, 77] = .ok (.jilt .ip (-5) 0, [77]) := by rfl

theorem witness_DisassemblyOfEncodingNamesMnemonicAndArguments : shuffled.wellFormed = true := by decide

theorem witness_UnknownMnemonicEmitsErrorWord :
    tokens "Noop 1".toList = ["Noop".toList, "1".toList] ∧ opcodeOf "Noop".toList = none := by decide

theorem witness_MalformedLineRefusesText :
    "RSET 1 5".toList ∈ ("NOOP\nRSET 1 5".toList).splitOn '\n' ∧
    tokens "RSET 1 5".toList = ["RSET".toList, "1".toList, "5".toList] ∧ opcodeOf "RSET".toList = some .rset ∧
    parseArgs Config.default Opcode.rset.kinds ["1".toList, "5".toList] = none := by decide

/-- The last address of a narrow memory, with the greatest value; address 62 is outside the image, 63 inside. -/
theorem witness_LoadLeavesResetState :
    (0 : Int) ≤ 63 ∧ narrow.fits 63 = true ∧ imageFits narrow 63 [(127 : Int)].length = true ∧
    ∀ v ∈ [(127 : Int)], narrow.fits v = true := by decide

theorem witness_LoadOutsideContractIsRefused :
    (-1 : Int) < 0 ∧ imageFits narrow 63 [(1 : Int), 1].length = false ∧
    ∃ v ∈ [(0 : Int), 128], narrow.fits v = false := by decide

theorem witness_LoadForgetsTheOldProcessor :
    (session 10 1 2 3 [(0, [1])]).mem = ({ session 0 0 0 9 [(0, [1])] with status := .halted } : State).mem ∧
    (session 10 1 2 3 [(0, [1])]).cfg = ({ session 0 0 0 9 [(0, [1])] with status := .halted } : State).cfg := by decide

theorem witness_BeforeTheFirstLoadTheHostIsRefused :
    (HostOp.step = .step) ∧ (∃ n, HostOp.run (some 3) = .run n) ∧ (HostOp.snapshot = .snapshot) ∧ HostOp.dump = .dump :=
  ⟨rfl, ⟨_, rfl⟩, rfl, rfl⟩

/-- The last four cells of a narrow memory. -/
theorem witness_StepRunsTheDecodedInstruction :
    let s := sessionOf narrow 60 0 0 0 [(60, [7, 1, 1, -8])]
    s.status.terminal = false ∧ decode s.cfg [7, 1, 1, -8] = .ok (.jilt .r1 1 (-8), []) ∧
      s.holds s.ip [7, 1, 1, -8] ∧ s.canFetch [7, 1, 1, -8].length :=
  ⟨by decide, rfl, holds_of_check (by decide), by unfold State.canFetch; decide⟩

theorem witness_TerminalStatusIsSticky :
    ({ session 10 1 2 3 [(10, [1])] with status := .halted } : State).status.terminal = true ∧
    ({ session 1 1 2 3 [(1, [1])] with status := .error (.unknownOpcode 8) } : State).status.terminal = true ∧
    ({ session 1 1 2 3 [(1, [1])] with status := .fault .errorOpcode } : State).status.terminal = true := by decide

/-- The opcode fetch below 0 and at 64, the first address past a narrow memory, and the fetches of JILT's first and last
argument word at 64. -/
theorem witness_FetchAtInvalidAddressFaults :
    ((session (-1) 0 0 0 []).status.terminal = false ∧ (session (-1) 0 0 0 []).cfg.okAddr (-1) = false) ∧
    ((sessionOf narrow 64 0 0 0 []).status.terminal = false ∧ (sessionOf narrow 64 0 0 0 []).cfg.okAddr 64 = false) ∧
    (let s := sessionOf narrow 63 0 0 0 [(63, [7])]
     s.status.terminal = false ∧ s.cfg.wellFormed = true ∧ s.memRead s.ip = some (s.cfg.opNum .jilt) ∧
       0 < Opcode.jilt.arity ∧ s.canFetch (0 + 1) ∧ (∀ j : Nat, j < 0 → s.memRead (s.ip + 1 + j) ≠ none) ∧
       s.cfg.okAddr (s.ip + 1 + (0 : Nat)) = false) ∧
    (let s := sessionOf narrow 61 0 0 0 [(61, [7, 1, 5])]
     s.status.terminal = false ∧ s.cfg.wellFormed = true ∧ s.memRead s.ip = some (s.cfg.opNum .jilt) ∧
       2 < Opcode.jilt.arity ∧ s.canFetch (2 + 1) ∧ (∀ j : Nat, j < 2 → s.memRead (s.ip + 1 + j) ≠ none) ∧
       s.cfg.okAddr (s.ip + 1 + (2 : Nat)) = false) :=
  ⟨by decide, by decide,
    ⟨by decide, by decide, by decide, by decide, by unfold State.canFetch; decide, by decide, by decide⟩,
    by decide, by decide, by decide, by decide, by unfold State.canFetch; decide, by decide, by decide⟩

/-- The last cell of a narrow memory, unset, and a cell that holds 0. -/
theorem witness_UnsetOpcodeWordHalts :
    (let s := sessionOf narrow 63 1 2 3 [(62, [1])]
     s.status.terminal = false ∧ s.canFetch 1 ∧ s.memRead s.ip = none) ∧
    (let s := session 0 0 0 0 [(0, [0])]
     s.status.terminal = false ∧ s.canFetch 1 ∧ s.memRead s.ip = some 0 ∧ ∃ t, step s = .next t) :=
  ⟨⟨by decide, by unfold State.canFetch; decide, by decide⟩,
    by decide, by unfold State.canFetch; decide, by decide, _, rfl⟩

theorem witness_UnknownOpcodeStops :
    let s := session 0 0 0 0 [(0, [8])]
    s.status.terminal = false ∧ s.canFetch 1 ∧ s.memRead s.ip = some 8 ∧ ∀ op, s.cfg.opNum op ≠ 8 :=
  ⟨by decide, by unfold State.canFetch; decide, by decide, by intro op; cases op <;> decide⟩

/-- TE7: the last argument word of JILT. -/
theorem witness_UnsetArgumentWordStops :
    let s := session 0 0 0 0 [(0, [7, 1, 5])]
    s.status.terminal = false ∧ s.cfg.wellFormed = true ∧ s.memRead s.ip = some (s.cfg.opNum .jilt) ∧
      2 < Opcode.jilt.arity ∧ s.canFetch (2 + 2) ∧ (∀ j : Nat, j < 2 → s.memRead (s.ip + 1 + j) ≠ none) ∧
      s.memRead (s.ip + 1 + (2 : Nat)) = none :=
  ⟨by decide, by decide, by decide, by decide, by unfold State.canFetch; decide, by decide, by decide⟩

/-- The second REG word of RCPY is the least bad one, 4; the first is the greatest good one, 3. -/
theorem witness_BadRegisterWordFaults :
    let s := session 10 7 0 0 [(10, [3, 3, 4])]
    s.status.terminal = false ∧ s.cfg.wellFormed = true ∧ [(3 : Int), 4].length = Opcode.rcpy.arity ∧
      s.holds s.ip (s.cfg.opNum .rcpy :: [3, 4]) ∧ s.canFetch (1 + Opcode.rcpy.arity) ∧
      Opcode.rcpy.kinds[1]? = some .reg ∧ [(3 : Int), 4][1]? = some 4 ∧ ((4 : Int) < 0 ∨ (3 : Int) < 4) ∧
      (∀ (j : Nat) (u : Int), j < 1 → Opcode.rcpy.kinds[j]? = some .reg → [(3 : Int), 4][j]? = some u → 0 ≤ u ∧ u ≤ 3) := by
  refine ⟨by decide, by decide, by decide, holds_of_check (by decide), by unfold State.canFetch; decide, by decide,
    by decide, by decide, ?_⟩
  intro j u hj _ hu
  obtain rfl : j = 0 := by omega
  simp at hu
  omega

/-- The increment to 128, past the opcode word, past JILT's first argument word and past its last. -/
theorem witness_FetchIncrementOutOfRangeFaults :
    (let s := sessionOf byteValues 127 0 0 0 [(127, [1])]
     s.status.terminal = false ∧ s.cfg.okAddr s.ip = true ∧ s.cfg.fits (s.ip + 1) = false) ∧
    (let s := sessionOf byteValues 126 0 0 0 [(126, [7])]
     s.status.terminal = false ∧ s.cfg.wellFormed = true ∧ s.memRead s.ip = some (s.cfg.opNum .jilt) ∧
       0 < Opcode.jilt.arity ∧ s.canFetch (0 + 1) ∧ (∀ j : Nat, j < 0 → s.memRead (s.ip + 1 + j) ≠ none) ∧
       s.cfg.okAddr (s.ip + 1 + (0 : Nat)) = true ∧ s.cfg.fits (s.ip + 2 + (0 : Nat)) = false) ∧
    (let s := sessionOf byteValues 124 0 0 0 [(124, [7, 1, 5, 0])]
     s.status.terminal = false ∧ s.cfg.wellFormed = true ∧ s.memRead s.ip = some (s.cfg.opNum .jilt) ∧
       2 < Opcode.jilt.arity ∧ s.canFetch (2 + 1) ∧ (∀ j : Nat, j < 2 → s.memRead (s.ip + 1 + j) ≠ none) ∧
       s.cfg.okAddr (s.ip + 1 + (2 : Nat)) = true ∧ s.cfg.fits (s.ip + 2 + (2 : Nat)) = false) :=
  ⟨by decide,
    ⟨by decide, by decide, by decide, by decide, by unfold State.canFetch; decide, by decide, by decide, by decide⟩,
    by decide, by decide, by decide, by decide, by unfold State.canFetch; decide, by decide, by decide, by decide⟩

theorem witness_ErrorRaisesFault : (session 1 0 0 0 [(0, [0])]).cfg.errorExec = .fault := by decide

theorem witness_ErrorUnderItsOtherParameters :
    (sessionOf { Config.default with errorExec := .noop } 1 0 0 0 []).cfg.errorExec = .noop ∧
    (sessionOf { Config.default with errorExec := .unknown } 1 0 0 0 []).cfg.errorExec = .unknown := by decide

/-- Both ends of an eight-bit range. -/
theorem witness_RsetSetsItsRegister :
    (sessionOf narrow 3 0 0 0 []).cfg.fits 127 = true ∧ (sessionOf narrow 3 0 0 0 []).cfg.fits (-128) = true := by decide

theorem witness_RcpyCopiesSourceToDestination :
    let s := sessionOf narrow 3 (-128) 0 0 []
    s.cfg.fits (s.reg .r1) = true := by decide

theorem witness_RaddAddsExactly :
    let s := sessionOf narrow 3 126 1 0 []
    s.cfg.fits (s.reg .r1 + s.reg .r2) = true := by decide

theorem witness_MsetStoresItsRegister : (sessionOf narrow 3 9 0 0 []).cfg.okAddr 63 = true := by decide

theorem witness_MgetLoadsASetCell :
    let s := sessionOf narrow 3 0 0 0 [(63, [-128])]
    s.cfg.okAddr 63 = true ∧ s.memRead (addrOperand 63) = some (-128) ∧ s.cfg.fits (-128) = true := by decide

/-- A jump that is taken to the last value that fits, and one that is not taken with a target that does not fit. -/
theorem witness_JiltJumpsIffLess :
    let s := sessionOf narrow 4 5 0 0 []
    (s.reg .r1 < 6 → s.cfg.fits 127 = true) ∧ s.reg .r1 < 6 ∧ (s.reg .r1 < 5 → s.cfg.fits 128 = true) ∧
      ¬ s.reg .r1 < 5 := by decide

theorem witness_RegisterWriteOutOfRangeFaults :
    let s := sessionOf narrow 4 127 1 200 [(63, [128])]
    s.cfg.fits 128 = false ∧ s.cfg.fits (s.reg .r3) = false ∧ s.cfg.fits (s.reg .r1 + s.reg .r2) = false ∧
      (s.cfg.okAddr 63 = true ∧ s.memRead 63 = some 128 ∧ s.cfg.fits 128 = false) ∧
      (s.reg .r2 < 2 ∧ s.cfg.fits (-129) = false) := by decide

theorem witness_MemoryAccessFaults :
    let s := sessionOf narrow 4 0 0 0 []
    s.cfg.okAddr (-1) = false ∧ s.cfg.okAddr 64 = false ∧ (s.cfg.okAddr 63 = true ∧ s.memRead 63 = none) := by decide

/-- RADD completes, MGET of an unset cell raises. -/
theorem witness_FrameOfInstructionsThatStoreNothing :
    (Instr.opcode (.radd .ip .ip) ≠ .mset ∧ ∃ t, exec (.radd .ip .ip) (session 13 0 0 0 []) = .next t) ∧
    (Instr.opcode (.mget 100 .r2) ≠ .mset ∧ ∃ t, exec (.mget 100 .r2) (session 9 0 5 0 []) = .next t) :=
  ⟨⟨by decide, _, rfl⟩, by decide, _, rfl⟩

theorem witness_FrameOfMset :
    (∃ t, exec (.mset 100 .ip) (session 6 0 0 0 []) = .next t) ∧ ∃ t, exec (.mset (-1) .r1) (session 6 0 0 0 []) = .next t :=
  ⟨⟨_, rfl⟩, _, rfl⟩

theorem witness_WritingIpTransfersControl :
    let s := sessionOf narrow 13 114 0 0 [(63, [30])]
    s.cfg.fits (-128) = true ∧ s.cfg.fits (s.reg .r1) = true ∧ s.cfg.fits (s.ip + s.reg .r1) = true ∧
      (s.cfg.okAddr 63 = true ∧ s.memRead 63 = some 30 ∧ s.cfg.fits 30 = true) := by decide

/-- The first and the last word of the instruction as the target. -/
theorem witness_StoreIntoTheInstructionItselfExecutesAsFetched :
    (let s := session 3 0 77 0 [(3, [5, 3, 2])]
     s.status.terminal = false ∧ s.cfg.wellFormed = true ∧ s.holds s.ip (encode s.cfg (.mset 3 .r2)) ∧ s.canFetch 3 ∧
       s.ip ≤ 3 ∧ 3 < s.ip + 3) ∧
    (let s := session 3 0 77 0 [(3, [5, 5, 2])]
     s.status.terminal = false ∧ s.cfg.wellFormed = true ∧ s.holds s.ip (encode s.cfg (.mset 5 .r2)) ∧ s.canFetch 3 ∧
       s.ip ≤ 5 ∧ 5 < s.ip + 3) :=
  ⟨⟨by decide, by decide, holds_of_check (by decide), by unfold State.canFetch; decide, by decide, by decide⟩,
    by decide, by decide, holds_of_check (by decide), by unfold State.canFetch; decide, by decide, by decide⟩

/-- TM4, then the least word that is no opcode's number, then RSET's number before the words of its arguments, then a store
of IP. -/
theorem witness_StoreIsSeenByTheNextFetch :
    (let s := session 3 0 1 0 [(3, [5, 6, 2])]
     s.status.terminal = false ∧ s.cfg.wellFormed = true ∧ s.holds s.ip (encode s.cfg (.mset (s.ip + 3) .r2)) ∧
       s.canFetch 4 ∧ ({ s with ip := s.ip + 3 } : State).reg .r2 = 1 ∧ decode s.cfg [1] = .ok (.noop, []) ∧
       s.holds (s.ip + 4) [] ∧ s.canFetch (4 + 0)) ∧
    (let s := session 3 0 8 0 [(3, [5, 6, 2])]
     s.status.terminal = false ∧ s.cfg.wellFormed = true ∧ s.holds s.ip (encode s.cfg (.mset (s.ip + 3) .r2)) ∧
       s.canFetch 4 ∧ ({ s with ip := s.ip + 3 } : State).reg .r2 = 8 ∧ ∀ op, s.cfg.opNum op ≠ 8) ∧
    (let s := session 3 0 2 0 [(3, [5, 6, 2]), (7, [1, -5])]
     s.status.terminal = false ∧ s.cfg.wellFormed = true ∧ s.holds s.ip (encode s.cfg (.mset (s.ip + 3) .r2)) ∧
       s.canFetch 4 ∧ ({ s with ip := s.ip + 3 } : State).reg .r2 = 2 ∧ decode s.cfg [2, 1, -5] = .ok (.rset .r1 (-5), []) ∧
       s.holds (s.ip + 4) [1, -5] ∧ s.canFetch (4 + [(1 : Int), -5].length)) ∧
    (let s := session 3 0 0 0 [(3, [5, 6, 0])]
     s.status.terminal = false ∧ s.cfg.wellFormed = true ∧ s.holds s.ip (encode s.cfg (.mset (s.ip + 3) .ip)) ∧
       s.canFetch 4 ∧ ({ s with ip := s.ip + 3 } : State).reg .ip = 6) :=
  ⟨⟨by decide, by decide, holds_of_check (by decide), by unfold State.canFetch; decide, by decide, rfl,
      holds_of_check (by decide), by unfold State.canFetch; decide⟩,
    ⟨by decide, by decide, holds_of_check (by decide), by unfold State.canFetch; decide, by decide,
      by intro op; cases op <;> decide⟩,
    ⟨by decide, by decide, holds_of_check (by decide), by unfold State.canFetch; decide, by decide, rfl,
      holds_of_check (by decide), by unfold State.canFetch; decide⟩,
    by decide, by decide, holds_of_check (by decide), by unfold State.canFetch; decide, by decide⟩

/-- TM1. -/
theorem witness_OnlyMsetChangesMemory :
    let s := session 3 42 0 0 [(3, [5, 100, 1])]
    ∃ t, step s = .next t ∧ t.mem.read 100 ≠ s.mem.read 100 := ⟨_, rfl, by decide⟩

theorem witness_SetCellsStaySet :
    let s := session 3 0 0 0 [(3, [5, 3, 1])]
    (∃ t, step s = .next t ∧ s.mem.read 3 ≠ none) ∧ (∃ r, run 4 s = .next r ∧ s.mem.read 5 ≠ none) ∧
      ∃ t, s.load [] 7 = .next t ∧ s.mem.read 4 ≠ none :=
  ⟨⟨_, rfl, by decide⟩, ⟨_, rfl, by decide⟩, _, rfl, by decide⟩

/-- A step that writes a register, one that writes a cell, one that raises. -/
theorem witness_StepChangesOneRegisterOrOneCell :
    (∃ t, step (session 0 0 0 0 [(0, [2, 1, 42])]) = .next t ∧ t.status = .running ∧ t.last = some (.rset .r1 42)) ∧
    (∃ t, step (session 3 42 0 0 [(3, [5, 100, 1])]) = .next t ∧ t.status = .running ∧ t.last = some (.mset 100 .r1)) ∧
    ∃ t, step (session 3 42 0 0 [(3, [5, -1, 1])]) = .next t ∧ t.status ≠ .running :=
  ⟨⟨_, rfl, by decide, by decide⟩, ⟨_, rfl, by decide, by decide⟩, _, rfl, by decide⟩

/-- TC7: the raise furthest from the old IP but for JILT's. -/
theorem witness_ExceptionsArePrecise :
    let s := session 10 7 0 0 [(10, [3, 5, 9])]
    s.status.terminal = false ∧ ∃ t, step s = .next t ∧ t.status ≠ .running := ⟨by decide, _, rfl, by decide⟩

theorem witness_CompletedStepRecordsWhatItFetched :
    let s := { session 10 0 0 0 [(10, [3, 0, 3])] with status := .budgetExceeded }
    s.status.terminal = false ∧ ∃ t, step s = .next t ∧ t.status = .running := ⟨by decide, _, rfl, by decide⟩

theorem witness_UnboundedValuesNeverRaiseRangeFaults :
    let s := session 0 9223372036854775807 1 0 [(0, [4, 1, 2])]
    s.cfg.valueWidth = none ∧ (∃ t, step s = .next t) ∧ s.status ≠ .fault (.valueRange 9223372036854775808) :=
  ⟨by decide, ⟨_, rfl⟩, by decide⟩

theorem witness_NoStepReadsTheLastRecord :
    let s := session 0 0 0 0 [(0, [7, 1, 5])]
    (∃ t, step s = .next t) ∧ ∃ u, step { s with last := some .noop } = .next u := ⟨⟨_, rfl⟩, _, rfl⟩

theorem witness_ParametersNeverChange :
    let s := sessionOf narrow 0 0 0 0 [(0, [2, 1, 42])]
    (∃ t, step s = .next t) ∧ ∃ t, s.load [127] 63 = .next t := ⟨⟨_, rfl⟩, _, rfl⟩

/-- A sound session about to store, whose step completes. -/
theorem sound_session : (session 3 42 0 0 [(3, [5, 100, 1])]).Sound where
  config := by decide
  canonical := by decide
  registers := by intro r; cases r <;> rfl
  cells := by intro a v _; rfl
  addresses := by
    intro a v _
    show (decide ((0 : Int) ≤ (a : Int)) && true) = true
    simp
  recorded := by intro i h; cases h

theorem witness_StepKeepsStatesSound :
    let s := session 3 42 0 0 [(3, [5, 100, 1])]
    s.Sound ∧ ∃ t, step s = .next t := ⟨sound_session, _, rfl⟩

theorem witness_LoadLeavesASoundState :
    (let s := session 3 42 0 0 [(3, [5, 100, 1])]
     s.Sound ∧ ∃ t, s.load [2, 1, 9] 4 = .next t) ∧
    narrow.wellFormed = true ∧ ∃ t, firstLoad narrow [127] 63 = .next t :=
  ⟨⟨sound_session, _, rfl⟩, by decide, _, rfl⟩

/-- A running session whose step raises, and a halted one. -/
theorem witness_StepKeepsTheStatusExplained :
    (let s := session 0 0 0 0 [(0, [7, 1, 5])]
     s.StatusExplained ∧ ∃ t, step s = .next t) ∧
    (let s := { session 10 1 2 3 [] with status := .halted }
     s.StatusExplained ∧ ∃ t, step s = .next t) :=
  ⟨⟨trivial, _, rfl⟩, ⟨by decide, by decide⟩, _, rfl⟩

theorem witness_EmptyBudgetInvokesNoStep : (0 : Int) ≤ 0 ∧ (session 0 0 0 0 [(0, [1])]).status.terminal = false := by decide

theorem witness_RunStaysWithinItsBudget :
    ∃ r, run 2 (session 0 0 0 0 [(0, [1, 1, 1])]) = .next r ∧ r.final.status = .budgetExceeded := ⟨_, rfl, by decide⟩

theorem witness_RunIsRepeatedStep : ∃ r, run 5 (session 0 0 0 0 [(0, [1, 1, 1])]) = .next r := ⟨_, rfl⟩

/-- TB6. -/
theorem witness_RunsCompose :
    ∃ q, run (2 : Nat) (session 0 0 0 0 [(0, [1, 1, 1])]) = .next q ∧ ∃ r, run (2 : Nat) q.final = .next r :=
  ⟨_, rfl, _, rfl⟩

theorem witness_DumpListsTheSetCells :
    let s := session 3 42 0 0 [(3, [5, 100, 1])]
    s.Sound ∧ (∃ e ∈ s.dump, s.cfg.opNum .mset = e.rawValue) ∧ ∃ e ∈ s.dump, ∀ op, s.cfg.opNum op ≠ e.rawValue := by
  refine ⟨sound_session, ⟨{ address := 3, rawValue := 5, opcodeName := "MSET".toList }, by decide, by decide⟩,
    { address := 4, rawValue := 100, opcodeName := [] }, by decide, ?_⟩
  intro op
  cases op <;> decide

theorem witness_SnapshotAndDumpOnlyLook :
    State.reset.last = none ∧ ({ State.reset with last := some .noop } : State).last = some .noop := by decide

/-- A step that completes, one that halts, one that errs, one that faults, one not performed. -/
theorem witness_StepEmitsSnapshotOrReport :
    (after (session 0 0 0 0 [(0, [1])])).map Prod.snd = some .running ∧
    (after (session 0 0 0 0 [])).map Prod.snd = some .halted ∧
    (after (session 0 0 0 0 [(0, [8])])).map Prod.snd = some (.error (.unknownOpcode 8)) ∧
    (after (session 0 0 0 0 [(0, [0])])).map Prod.snd = some (.fault .errorOpcode) ∧
    ({ State.reset with status := .halted } : State).status.terminal = true := by decide

end Sys2Proof.Tests
end

section
/-! What the host sees of a session (`10_state.md` R40, R41; R258): the two operations that look, and the snapshot's
fields. -/

namespace Sys2Proof.Machine

section Look

variable (c : Config) (s : State)

/-- R40, R258: the session is handed back as it was, and nothing is emitted. -/
@[simp] theorem hostDo_snapshot : hostDo c (some s) .snapshot = .next
    { session := s, answer := .snapshot s.snapshot, observer := [], sink := [], renderer := [] } := rfl

/-- R41, R258: the session is handed back as it was, and nothing is emitted. -/
@[simp] theorem hostDo_dump : hostDo c (some s) .dump = .next
    { session := s, answer := .dump s.dump, observer := [], sink := [], renderer := [] } := rfl

@[simp] theorem State.snapshot_ip : s.snapshot.ip = s.ip := rfl
@[simp] theorem State.snapshot_r1 : s.snapshot.r1 = s.r1 := rfl
@[simp] theorem State.snapshot_r2 : s.snapshot.r2 = s.r2 := rfl
@[simp] theorem State.snapshot_r3 : s.snapshot.r3 = s.r3 := rfl

variable {s}

theorem State.snapshot_lastInstruction_of_none (h : s.last = none) : s.snapshot.lastInstruction = [] := by
  simp only [State.snapshot, h]

theorem State.snapshot_lastInstruction_of_some {i : Instr} (h : s.last = some i) :
    s.snapshot.lastInstruction = disassemble i := by
  simp only [State.snapshot, h]

end Look

/-- Settles O58: each operation by its equation, the snapshot by its fields; none of them looks at the status. -/
theorem snapshotAndDumpOnlyLook : Obligations.SnapshotAndDumpOnlyLook := fun c s =>
  ⟨hostDo_snapshot c s, hostDo_dump c s, s.snapshot_ip, s.snapshot_r1, s.snapshot_r2, s.snapshot_r3,
    State.snapshot_lastInstruction_of_none, fun _ => State.snapshot_lastInstruction_of_some⟩

end Sys2Proof.Machine
end

section
/-! What becomes of memory (`20_memory.md` R67; R38): a fetch leaves it, every effect but a completed MSET leaves it, and
so does every step but a completed MSET. -/

namespace Sys2Proof.Machine

variable {s t : State} {i : Instr}

/-- R124, R125: an argument fetch that raises only moves IP and sets the status. -/
theorem ArgsRaised.mem_eq {n k : Nat} (h : ArgsRaised n k s t) : t.mem = s.mem := by
  cases h <;> simp

/-- R67: a fetch that raises leaves memory. -/
theorem FetchRaised.mem_eq (h : FetchRaised s t) : t.mem = s.mem := by
  cases h with
  | argument _ _ _ _ _ _ _ hr => exact hr.mem_eq
  | _ => simp

/-- R67: a fetch that gets its instruction only moves IP. -/
theorem fetchInstr_got_mem {u : State} (h : fetchInstr s = .got i u) : u.mem = s.mem := by
  obtain ⟨rfl, -⟩ := fetchInstr_got h
  exact s.withIp_mem _

theorem fetchInstr_got_status {u : State} (h : fetchInstr s = .got i u) : u.status = s.status := by
  obtain ⟨rfl, -⟩ := fetchInstr_got h
  exact s.withIp_status _

/-- What an effect does to memory: nothing, or the one write of an MSET that completes. -/
theorem Effect.mem_eq_or_mset (h : Effect i s t) :
    t.mem = s.mem ∨ ∃ address reg, i = .mset address reg ∧ s.cfg.okAddr address = true ∧
      t = (s.memWrite address (s.reg reg)).record i := by
  cases h with
  | cell a r hi ha => exact .inr ⟨a, r, hi, ha, rfl⟩
  | _ => left; simp

/-- What a step does to memory: nothing, or the one write of the MSET it completes and records. -/
theorem step_mem_eq_or_mset (h : step s = .next t) :
    t.mem = s.mem ∨ ∃ address reg, t.last = some (.mset address reg) ∧ t.status = .running ∧
      0 ≤ address ∧ t.mem = s.mem.write address.toNat (t.reg reg) := by
  rcases step_cases h with ⟨-, rfl⟩ | ⟨-, hraised⟩ | ⟨hs, i, u, hfetch, hexec⟩
  · exact .inl rfl
  · left
    simpa using hraised.mem_eq
  · have hmem : u.mem = s.mem := by simpa using fetchInstr_got_mem hfetch
    rcases (exec_effect hexec).mem_eq_or_mset with hkeep | ⟨address, reg, rfl, haddr, rfl⟩
    · exact .inl (hkeep.trans hmem)
    · have hstatus : u.status = .running := (fetchInstr_got_status hfetch).trans (State.resume_status hs)
      exact .inr ⟨address, reg, rfl, by simpa using hstatus, Config.okAddr_nonneg haddr, by simp [hmem]⟩

/-- Settles O41: a cell that reads otherwise rules out the steps that leave memory, and every cell but the one at the
MSET's address reads past its write. -/
theorem onlyMsetChangesMemory : Obligations.OnlyMsetChangesMemory := by
  intro s t a hstep hchanged
  rcases step_mem_eq_or_mset hstep with hkeep | ⟨address, reg, hlast, hstatus, hnonneg, hwrite⟩
  · rw [hkeep] at hchanged
    exact absurd rfl hchanged
  · have ha : a = address.toNat := by
      by_contra hne
      rw [hwrite, Memory.read_write_other _ _ hne] at hchanged
      exact hchanged rfl
    refine ⟨address, reg, hlast, hstatus, by omega, ?_⟩
    calc t.mem.read a = (s.mem.write address.toNat (t.reg reg)).read a := by rw [hwrite]
      _ = some (t.reg reg) := by rw [ha, Memory.read_write_same]

end Sys2Proof.Machine
end

section
/-! The opcode numbering and its decoder (`30_encoding.md` R90, R91): numbers that differ for different opcodes (R6) make
`opDec` the inverse of `opNum`; on any other word it answers `none`. -/

namespace Sys2Proof

variable {c : Config} {w : Int}

/-- R90: the decoder's search meets every opcode. -/
theorem Opcode.mem_all (op : Opcode) : op ∈ Opcode.all := by
  cases op <;> decide

/-- R90: a negative word is no opcode's number. -/
theorem Config.opNum_nonneg (c : Config) (op : Opcode) : 0 ≤ c.opNum op := by
  cases op <;> exact Int.natCast_nonneg _

/-- R6: different opcodes have different numbers. -/
theorem Config.opNum_injective (hc : c.wellFormed = true) : Function.Injective c.opNum := by
  simp only [Config.wellFormed, Bool.and_eq_true, decide_eq_true_eq] at hc
  obtain ⟨⟨⟨hnodup, -⟩, -⟩, -⟩ := hc
  exact fun a b h => List.inj_on_of_nodup_map hnodup a.mem_all b.mem_all h

/-- R91: the decoder refuses exactly the words that are no opcode's number; no constraint on the numbering is needed. -/
theorem Config.opDec_eq_none_iff : c.opDec w = none ↔ ∀ op, c.opNum op ≠ w := by
  simp [Config.opDec, Opcode.mem_all]

/-- R6, R91: an opcode's number decodes to that opcode. -/
theorem Config.opDec_opNum (hc : c.wellFormed = true) (op : Opcode) : c.opDec (c.opNum op) = some op := by
  cases hd : c.opDec (c.opNum op) with
  | none => exact absurd rfl (Config.opDec_eq_none_iff.mp hd op)
  | some found => rw [Config.opNum_injective hc (Config.opNum_of_opDec hd)]

/-- Settles O1: the decoder inverts the numbering, and a negative word is off the table because numbers are
non-negative. -/
theorem opcodeDecoderIsWordEquality : Obligations.OpcodeDecoderIsWordEquality := by
  intro c hc w
  refine ⟨fun op => ⟨Config.opNum_of_opDec, ?_⟩, Config.opDec_eq_none_iff.mpr, fun hneg => ?_⟩
  · rintro rfl
    exact Config.opDec_opNum hc op
  · refine Config.opDec_eq_none_iff.mpr fun op heq => ?_
    have hnonneg := c.opNum_nonneg op
    omega

end Sys2Proof
end

section
/-! The two ways a step ends on its opcode word (`40_step_cycle.md` R121 to R123): the word is unset, or it is no opcode's
number. Either way IP has moved past the word and no argument word was read. -/

namespace Sys2Proof.Machine

variable {s t : State} {i : Instr}

/-- Whether words can be fetched does not depend on the status. -/
@[simp] theorem State.canFetch_resume {n : Nat} : s.resume.canFetch n ↔ s.canFetch n := by
  simp [State.canFetch]

/-- Raising overwrites the status, so whether the session was resumed before is not seen. -/
theorem State.resume_withIp_raise (s : State) (v : Int) (k : Status) :
    (s.resume.withIp v).raise k = { s with status := k, ip := v } := by
  unfold State.resume
  split <;> rfl

/-- R121: the fetch of one word where one word can be fetched. -/
theorem fetchWord_of_canFetch (hc : s.canFetch 1) :
    fetchWord s = .got (s.memRead s.ip) (s.withIp (s.ip + 1)) := by
  obtain ⟨ha, hf⟩ := hc 0 Nat.one_pos
  simp only [Nat.cast_zero, add_zero] at ha hf
  exact fetchWord_got ha hf

/-- R122: the fetch of an instruction whose opcode word is unset. -/
theorem fetchInstr_unset (hc : s.canFetch 1) (hm : s.memRead s.ip = none) :
    fetchInstr s = .raised ((s.withIp (s.ip + 1)).raise .halted) := by
  simp only [fetchInstr, fetchWord_of_canFetch hc, hm]

/-- R123: the fetch of an instruction whose opcode word does not decode. -/
theorem fetchInstr_unknown {w : Int} (hc : s.canFetch 1) (hm : s.memRead s.ip = some w)
    (hd : s.cfg.opDec w = none) :
    fetchInstr s = .raised ((s.withIp (s.ip + 1)).raise (.error (.unknownOpcode w))) := by
  simp only [fetchInstr, fetchWord_of_canFetch hc, hm, State.withIp_cfg, hd]

/-- R129: where the fetch raises, the step ends in the state the fetch raised in. -/
theorem step_of_fetchInstr_raised (hs : s.status.terminal = false) (h : fetchInstr s.resume = .raised t) :
    step s = .next t := by
  rw [step_performed hs, stepCore, h]

/-- R124, R125: an argument fetch that raises does not halt the core, not even at an unset word. -/
theorem ArgsRaised.status_ne_halted {n k : Nat} (h : ArgsRaised n k s t) : t.status ≠ .halted := by
  cases h <;> simp

/-- R122: of all that can end a fetch, only an unset opcode word halts the core. -/
theorem FetchRaised.memRead_ip_of_halted (h : FetchRaised s t) (ht : t.status = .halted) :
    s.memRead s.ip = none := by
  cases h with
  | halted _ hm => exact hm
  | argument _ _ _ _ _ _ _ hr => exact absurd ht hr.status_ne_halted
  | _ => simp at ht

/-- R127: no instruction's effect halts the core. -/
theorem Effect.status_ne_halted (h : Effect i s t) (hs : s.status ≠ .halted) : t.status ≠ .halted := by
  cases h <;> simp [hs]

/-- R122: a step that halts the core met an unset opcode word. -/
theorem memRead_ip_of_step_halted (hs : s.status.terminal = false) (h : step s = .next t)
    (ht : t.status = .halted) : s.memRead s.ip = none := by
  rcases step_cases h with ⟨hterminal, -⟩ | ⟨-, hraised⟩ | ⟨-, i, u, hfetch, hexec⟩
  · simp [hs] at hterminal
  · simpa using hraised.memRead_ip_of_halted ht
  · have hu : u.status = .running := (fetchInstr_got_status hfetch).trans (State.resume_status hs)
    exact absurd ht ((exec_effect hexec).status_ne_halted (by simp [hu]))

/-- Settles O21: the word is the decoder's `none`, and the fetch ends there. -/
theorem unknownOpcodeStops : Obligations.UnknownOpcodeStops := by
  intro s w hs hc hm hw
  have hd : s.cfg.opDec w = none := Config.opDec_eq_none_iff.mpr hw
  have hfetch := fetchInstr_unknown (s := s.resume) (w := w) (by simpa using hc) (by simpa using hm)
    (by simpa using hd)
  rw [step_of_fetchInstr_raised hs hfetch, State.resume_ip, State.resume_withIp_raise]

/-- Settles O20: an unset opcode word ends the fetch in `Halted`, and nothing else in a step does. -/
theorem unsetOpcodeWordHalts : Obligations.UnsetOpcodeWordHalts := by
  refine fun s hs hc => ⟨fun hm => ?_, fun w t hm hstep ht => ?_⟩
  · have hfetch := fetchInstr_unset (s := s.resume) (by simpa using hc) (by simpa using hm)
    rw [step_of_fetchInstr_raised hs hfetch, State.resume_ip, State.resume_withIp_raise]
  · have hnone := memRead_ip_of_step_halted hs hstep ht
    simp [hm] at hnone

end Sys2Proof.Machine
end

section
/-! What a load leaves (`70_reset_and_hazards.md` R246; `20_memory.md` R60): inside its contract it answers the loaded
state, whose memory is the old one with the image written upward from the offset. -/

namespace Sys2Proof.Machine

/-- R240 to R249: inside its contract a load is not refused. -/
theorem loadOver_of_contract {c : Config} {image : List Int} {offset : Int} (m0 : Memory) (hoff : 0 ≤ offset)
    (hfits : c.fits offset = true) (himage : imageFits c offset image.length = true)
    (hwords : ∀ v ∈ image, c.fits v = true) :
    loadOver c m0 image offset = .next (loadedState c m0 image offset) := by
  have hnone : (image.find? fun v => !c.fits v) = none := by simpa using hwords
  simp [loadOver, not_lt.mpr hoff, hfits, himage, hnone]

/-- R60: the cells of a loaded state. -/
theorem loadedState_read (c : Config) (m0 : Memory) (image : List Int) (offset : Int) (a : Nat) :
    (loadedState c m0 image offset).mem.read a =
      if offset.toNat ≤ a ∧ a < offset.toNat + image.length then image[a - offset.toNat]? else m0.read a :=
  Memory.read_writeAll m0 offset.toNat image a

/-- Settles O10: the load answers the loaded state, which has the reset fields as given and the image over the memory. -/
theorem loadLeavesResetState : Obligations.LoadLeavesResetState :=
  fun c m0 image offset hoff hfits himage hwords =>
    ⟨loadedState c m0 image offset, loadOver_of_contract m0 hoff hfits himage hwords,
      rfl, rfl, rfl, rfl, rfl, rfl, rfl, loadedState_read c m0 image offset⟩

end Sys2Proof.Machine
end

section
/-! A run as calls of `step` (`70_reset_and_hazards.md` R253 to R255): the loop's ticks are steps of the core, resuming
first changes no step, and naming the end `BudgetExceeded` does not see whether the end was resumed. -/

namespace Sys2Proof.Machine

variable {s t : State}

/-- In `Running` the step is `step_core()` (R251). -/
theorem step_of_running (h : s.status = .running) : step s = stepCore s := by
  rw [step_performed (by rw [h]; rfl), State.resume_of_running h]

/-- R204: resuming before a step changes nothing, since the step resumes itself. -/
theorem step_resume (s : State) : step s.resume = step s := by
  cases hs : s.status.terminal with
  | true => rw [State.resume_of_terminal hs]
  | false => rw [step_of_running (State.resume_status hs), step_performed hs]

/-- R204, R253: what resuming undoes, exhausting does again. -/
@[simp] theorem State.exhaust_resume (s : State) : s.resume.exhaust = s.exhaust := by
  obtain ⟨c, ip, r1, r2, r3, m, status, last⟩ := s
  cases status <;> rfl

/-- A run of any core whose first step answers `t` goes on from `t`. -/
theorem coreRun_succ_of_next {M : Host.Core} {s t : M.State} (k : Nat) (h : M.step s = .next t) :
    M.run (k + 1) s = M.run k t := by
  rw [Host.Core.run, h]

/-- A run of any core with at least one step sees of its first state only what that step answers. -/
theorem coreRun_succ_congr {M : Host.Core} {s t : M.State} (k : Nat) (h : M.step s = M.step t) :
    M.run (k + 1) s = M.run (k + 1) t := by
  rw [Host.Core.run, Host.Core.run, h]

/-- R253: what the loop does with a tick left: it stops outside `Running`, else it steps and goes on. -/
theorem runTicks_succ_cases {n : Nat} {r : RunRecord} (h : runTicks (n + 1) s = .next r) :
    (s.status ≠ .running ∧ r = { final := s, invoked := [] }) ∨
    (s.status = .running ∧ ∃ t q, step s = .next t ∧ runTicks n t = .next q ∧
      r = { final := q.final, invoked := t :: q.invoked }) := by
  rw [runTicks] at h
  split at h
  · next hs =>
    rw [← step_of_running hs] at h
    cases hstep : step s with
    | next t =>
      cases hrest : runTicks n t with
      | next q =>
        simp only [hstep, hrest] at h
        cases h
        exact .inr ⟨hs, t, q, rfl, hrest, rfl⟩
      | fault f => simp [hstep, hrest] at h
      | refused f => simp [hstep, hrest] at h
    | fault f => simp [hstep] at h
    | refused f => simp [hstep] at h
  · next hs =>
    cases h
    exact .inl ⟨hs, rfl⟩

/-- R254: the loop counts no more ticks than it was given. -/
theorem runTicks_ticks_le {n : Nat} {r : RunRecord} (h : runTicks n s = .next r) : r.ticks ≤ n := by
  induction n generalizing s r with
  | zero => cases h; exact le_rfl
  | succ n ih =>
    rcases runTicks_succ_cases h with ⟨-, rfl⟩ | ⟨-, t, q, -, hrest, rfl⟩
    · exact Nat.zero_le _
    · exact Nat.succ_le_succ (ih hrest)

/-- R255: the loop leaves what as many steps of the core leave as it counted ticks. -/
theorem core_run_ticks_of_runTicks {n : Nat} {r : RunRecord} (h : runTicks n s = .next r) :
    core.run r.ticks s = .next r.final := by
  induction n generalizing s r with
  | zero => cases h; rfl
  | succ n ih =>
    rcases runTicks_succ_cases h with ⟨-, rfl⟩ | ⟨-, t, q, hstep, hrest, rfl⟩
    · rfl
    · exact (coreRun_succ_of_next (M := core) q.ticks hstep).trans (ih hrest)

/-- R204: steps from the resumed session leave what they leave from the session itself, where there is at least one;
where there is none, the session is left as it stood. -/
theorem core_run_of_resume {k : Nat} (h : core.run k s.resume = .next t) :
    ∃ u, core.run k s = .next u ∧ u.exhaust = t.exhaust := by
  cases k with
  | zero =>
    cases h
    exact ⟨s, rfl, s.exhaust_resume.symm⟩
  | succ k =>
    have hsame : core.run (k + 1) s.resume = core.run (k + 1) s :=
      coreRun_succ_congr (M := core) k (step_resume s)
    exact ⟨t, hsame.symm.trans h, rfl⟩

/-- R253: a run is its loop from the resumed session, with the end exhausted. -/
theorem run_next {n : Int} {r : RunRecord} (h : run n s = .next r) :
    ∃ q, runTicks n.toNat s.resume = .next q ∧ r = { final := q.final.exhaust, invoked := q.invoked } := by
  rw [run] at h
  cases hq : runTicks n.toNat s.resume with
  | next q =>
    simp only [hq] at h
    cases h
    exact ⟨q, rfl, rfl⟩
  | fault f => simp [hq] at h
  | refused f => simp [hq] at h

/-- Settles O55: the loop's ticks are steps from the resumed session, hence from the session itself; the end's name is
then the same. -/
theorem runIsRepeatedStep : Obligations.RunIsRepeatedStep := by
  intro s n r hrun
  obtain ⟨q, hloop, rfl⟩ := run_next hrun
  obtain ⟨t, ht, hend⟩ := core_run_of_resume (core_run_ticks_of_runTicks hloop)
  have hticks : q.ticks ≤ n.toNat := runTicks_ticks_le hloop
  exact ⟨hticks, t, ht, hend.symm.trans (State.exhaust_resume t).symm⟩

end Sys2Proof.Machine
end

section
/-! The register numbering and its decoder (`30_encoding.md` R87, R95): four different numbers from 0 to 3 (R6) are all of
0 to 3, so `regDec` is the inverse of `regNum` there and answers `none` on every other word. -/

namespace Sys2Proof

variable {c : Config} {v : Int}

/-- R20: the decoder's search meets every register. -/
theorem Reg.mem_all (r : Reg) : r ∈ Reg.all := by
  cases r <;> decide

/-- R6: different registers have different numbers. -/
theorem Config.regNum_injective (hc : c.wellFormed = true) : Function.Injective c.regNum := by
  simp only [Config.wellFormed, Bool.and_eq_true, decide_eq_true_eq] at hc
  obtain ⟨⟨⟨-, hnodup⟩, -⟩, -⟩ := hc
  exact fun a b h => List.inj_on_of_nodup_map hnodup a.mem_all b.mem_all h

/-- R6: a register's number is one of 0, 1, 2, 3. -/
theorem Config.regNum_mem_range (hc : c.wellFormed = true) (r : Reg) : 0 ≤ c.regNum r ∧ c.regNum r ≤ 3 := by
  simp only [Config.wellFormed, Bool.and_eq_true, List.all_eq_true, decide_eq_true_eq] at hc
  obtain ⟨⟨-, hle⟩, -⟩ := hc
  refine ⟨?_, hle r r.mem_all⟩
  cases r <;> exact Int.natCast_nonneg _

/-- R95: the decoder refuses exactly the words that are no register's number; no constraint on the numbering is needed. -/
theorem Config.regDec_eq_none_iff : c.regDec v = none ↔ ∀ r, c.regNum r ≠ v := by
  simp [Config.regDec, Reg.mem_all]

/-- R6, R87: a register's number decodes to that register. -/
theorem Config.regDec_regNum (hc : c.wellFormed = true) (r : Reg) : c.regDec (c.regNum r) = some r := by
  cases hd : c.regDec (c.regNum r) with
  | none => exact absurd rfl (Config.regDec_eq_none_iff.mp hd r)
  | some found => rw [Config.regNum_injective hc (Config.regNum_of_regDec hd)]

/-- R6: the four numbers leave none of 0, 1, 2, 3 out. -/
theorem Config.exists_regNum_eq (hc : c.wellFormed = true) (h0 : 0 ≤ v) (h3 : v ≤ 3) : ∃ r, c.regNum r = v := by
  by_contra hnone
  push Not at hnone
  have hne : ∀ {a b : Reg}, a ≠ b → c.regNum a ≠ c.regNum b := fun hab h => hab (Config.regNum_injective hc h)
  have hip := c.regNum_mem_range hc .ip
  have hr1 := c.regNum_mem_range hc .r1
  have hr2 := c.regNum_mem_range hc .r2
  have hr3 := c.regNum_mem_range hc .r3
  have h01 := hne (a := .ip) (b := .r1) (by decide)
  have h02 := hne (a := .ip) (b := .r2) (by decide)
  have h03 := hne (a := .ip) (b := .r3) (by decide)
  have h12 := hne (a := .r1) (b := .r2) (by decide)
  have h13 := hne (a := .r1) (b := .r3) (by decide)
  have h23 := hne (a := .r2) (b := .r3) (by decide)
  have := hnone .ip
  have := hnone .r1
  have := hnone .r2
  have := hnone .r3
  omega

/-- R6, R95: the words that name no register are those outside 0 to 3. -/
theorem Config.regDec_eq_none_iff_outside (hc : c.wellFormed = true) : c.regDec v = none ↔ v < 0 ∨ 3 < v := by
  rw [Config.regDec_eq_none_iff]
  constructor
  · intro hnone
    by_contra hin
    obtain ⟨r, hr⟩ := Config.exists_regNum_eq (v := v) hc (by omega) (by omega)
    exact hnone r hr
  · rintro hout r rfl
    have := c.regNum_mem_range hc r
    omega

/-- Settles O2: the default numbers one by one, then the words outside 0 to 3 under any numbering that meets R6. -/
theorem registerWordsAreZeroToThree : Obligations.RegisterWordsAreZeroToThree := by
  refine ⟨fun v => ?_, fun c hc v => Config.regDec_eq_none_iff_outside hc⟩
  have hd : Config.default.wellFormed = true := by decide
  split
  · next h => subst h; exact Config.regDec_regNum hd .ip
  split
  · next h => subst h; exact Config.regDec_regNum hd .r1
  split
  · next h => subst h; exact Config.regDec_regNum hd .r2
  split
  · next h => subst h; exact Config.regDec_regNum hd .r3
  exact (Config.regDec_eq_none_iff_outside hd).mpr (by omega)

end Sys2Proof
end

section
/-! Decoding and encoding (`30_encoding.md` R80 to R91): operand decode undoes `encodeArgs`, the decoder undoes `encode`,
and a list of words that decodes is the encoding of what was read. -/

namespace Sys2Proof

variable {c : Config}

/-- R87: a register's number resolves to it. -/
theorem Config.regArg_regNum (hc : c.wellFormed = true) (r : Reg) : c.regArg (c.regNum r) = .ok r := by
  simp [Config.regArg, Config.regDec_regNum hc]

/-- R81: an instruction has as many argument words as its opcode's arity. -/
@[simp] theorem encodeArgs_length (c : Config) (i : Instr) : (encodeArgs c i).length = i.opcode.arity := by
  cases i <;> rfl

/-- R80, R97: an instruction has as many words as its length. -/
@[simp] theorem encode_length (c : Config) (i : Instr) : (encode c i).length = i.length := by
  simp [encode, Instr.length, add_comm]

/-- R126: operand decode gives back the instruction whose argument words it is given. -/
theorem Config.decodeArgs_encodeArgs (hc : c.wellFormed = true) (i : Instr) :
    c.decodeArgs i.opcode (encodeArgs c i) = .ok i := by
  cases i <;> simp only [Instr.opcode, encodeArgs, Config.decodeArgs, Config.regArg_regNum hc] <;> rfl

/-- R91, R125, R126: the decoder on an opcode's number with enough words after it. -/
theorem decode_of_opDec {w : Int} {op : Opcode} {v rest : List Int} (hd : c.opDec w = some op)
    (hv : v.length = op.arity) :
    decode c (w :: (v ++ rest)) = (c.decodeArgs op v).map fun i => (i, rest) := by
  have hlong : ¬ (v ++ rest).length < op.arity := by simp [hv]
  simp only [decode, hd, if_neg hlong, List.take_left' hv, List.drop_left' hv]
  cases c.decodeArgs op v <;> rfl

/-- R80, R91: the decoder reads an instruction from its words and leaves what follows. -/
theorem decode_encode_append (hc : c.wellFormed = true) (i : Instr) (rest : List Int) :
    decode c (encode c i ++ rest) = .ok (i, rest) := by
  rw [encode, List.cons_append, decode_of_opDec (Config.opDec_opNum hc _) (encodeArgs_length c i),
    Config.decodeArgs_encodeArgs hc]
  rfl

/-- R80, R91: the decoder reads an instruction from exactly its words. -/
theorem decode_encode (hc : c.wellFormed = true) (i : Instr) : decode c (encode c i) = .ok (i, []) := by
  simpa using decode_encode_append hc i []

/-- A list of words that decodes begins with an opcode's number, has the argument words after it, and the rest is left. -/
theorem decode_ok {ws rest : List Int} {i : Instr} (h : decode c ws = .ok (i, rest)) :
    c.opDec (c.opNum i.opcode) = some i.opcode ∧ c.decodeArgs i.opcode (encodeArgs c i) = .ok i ∧
      ws = encode c i ++ rest := by
  cases ws with
  | nil => cases h
  | cons w ws =>
    simp only [decode] at h
    split at h
    · cases h
    next op hd =>
    split at h
    · cases h
    split at h
    · cases h
    next j hargs =>
    cases h
    obtain ⟨rfl, he⟩ := Config.decodeArgs_ok hargs
    have hw := Config.opNum_of_opDec hd
    refine ⟨by rw [hw, hd], by rw [he, hargs], ?_⟩
    simp [encode, he, hw]

/-- Settles O4: opcode and operands are each undone by their decoder. -/
theorem decodeOfEncodeIsIdentity : Obligations.DecodeOfEncodeIsIdentity :=
  fun _ hc => decode_encode_append hc

/-- Settles O5: what decodes was read word by word. -/
theorem encodeOfDecodeIsIdentity : Obligations.EncodeOfDecodeIsIdentity := by
  intro c ws i rest h
  obtain ⟨-, -, hws⟩ := decode_ok h
  exact hws

/-- Settles O3: each sample is the encoding of its instruction under the default numbering, which meets R6. -/
theorem sampleWordsDecode : Obligations.SampleWordsDecode :=
  have sample := decode_encode_append (c := Config.default) (by decide)
  ⟨sample .error [], sample .noop [1], sample (.rset .r1 5) [], sample (.rcpy .ip .r3) [],
    sample (.radd .r1 .r2) [], sample (.mset 100 .r1) [], sample (.mget 100 .r2) [], sample (.jilt .r2 5 0) []⟩

end Sys2Proof

namespace Sys2Proof.Machine

/-- R109: what the disassembler prints of an instruction's words. -/
theorem disassembleWords_encode {c : Config} (hc : c.wellFormed = true) (i : Instr) :
    disassembleWords c (c.opNum i.opcode) (encodeArgs c i) = disassemble i := by
  have h : decode c (c.opNum i.opcode :: encodeArgs c i) = .ok (i, []) := decode_encode hc i
  simp only [disassembleWords, h]

/-- Settles O7: the words decode to the instruction, whose line is its mnemonic and operands. -/
theorem disassemblyOfEncodingNamesMnemonicAndArguments :
    Obligations.DisassemblyOfEncodingNamesMnemonicAndArguments :=
  fun _ hc => disassembleWords_encode hc

end Sys2Proof.Machine
end

section
/-! The text of an instruction (`30_encoding.md` R98 to R108): decimal digits read back to the number they print, the
tokens of words joined by single spaces are those words, and so the disassembled line assembles to its instruction. -/

namespace Sys2Proof.Machine

/-! ### Decimal numbers -/

/-- The character that prints a decimal digit. -/
def digitChar (d : Nat) : Char := Char.ofNat (48 + d)

/-- R102: a decimal digit reads back as its value. -/
theorem digitValue_digitChar {d : Nat} (hd : d < 10) : digitValue (digitChar d) = some d := by
  interval_cases d <;> rfl

/-- A decimal digit is no minus sign, white space, comma or line break. -/
theorem digitChar_plain {d : Nat} (hd : d < 10) : digitChar d ≠ '-' ∧ isSeparator (digitChar d) = false := by
  interval_cases d <;> decide

/-- R102: digits are read one after the other. -/
theorem parseDigits_append (n : Nat) (front back : Text) :
    parseDigits n (front ++ back) = (parseDigits n front).bind fun m => parseDigits m back := by
  induction front generalizing n with
  | nil => rfl
  | cons ch front ih =>
    cases hch : digitValue ch with
    | none => simp [parseDigits, hch]
    | some d => simpa [parseDigits, hch] using ih (10 * n + d)

/-- R102: reading printed digits, the least significant of which is the head of `ds`, gives the number they stand for. -/
theorem parseDigits_digitChar {ds : List Nat} (hds : ∀ d ∈ ds, d < 10) :
    parseDigits 0 (ds.map digitChar).reverse = some (Nat.ofDigits 10 ds) := by
  induction ds with
  | nil => rfl
  | cons d ds ih =>
    have hd : digitValue (digitChar d) = some d := digitValue_digitChar (hds d List.mem_cons_self)
    have hrest := ih fun e he => hds e (List.mem_cons_of_mem d he)
    simp [parseDigits_append, hrest, parseDigits, hd, Nat.ofDigits_cons, add_comm]

/-- A printed number is its digits, most significant first; zero has one digit. -/
theorem natText_eq (n : Nat) :
    ∃ ds : List Nat, ds ≠ [] ∧ (∀ d ∈ ds, d < 10) ∧ Nat.ofDigits 10 ds = n ∧ natText n = (ds.map digitChar).reverse := by
  by_cases hn : n = 0
  · subst hn
    exact ⟨[0], by simp, by simp, rfl, rfl⟩
  · refine ⟨Nat.digits 10 n, Nat.digits_ne_nil_iff_ne_zero.mpr hn, fun d => Nat.digits_lt_base (by decide),
      Nat.ofDigits_digits 10 n, ?_⟩
    rw [natText, if_neg hn, List.map_reverse]
    rfl

/-- A printed number has a first character, and none of its characters is a minus sign or separates tokens. -/
theorem natText_plain (n : Nat) : natText n ≠ [] ∧ ∀ ch ∈ natText n, ch ≠ '-' ∧ isSeparator ch = false := by
  obtain ⟨ds, hne, hds, -, htext⟩ := natText_eq n
  rw [htext]
  refine ⟨by simpa using hne, fun ch hch => ?_⟩
  obtain ⟨d, hd, rfl⟩ := List.mem_map.mp (List.mem_reverse.mp hch)
  exact digitChar_plain (hds d hd)

/-- R102: a printed number reads back. -/
theorem parseNat_natText (n : Nat) : parseNat (natText n) = some n := by
  obtain ⟨ds, hne, hds, hn, htext⟩ := natText_eq n
  have hread := parseDigits_digitChar hds
  simpa [parseNat, htext, hne, hn] using hread

/-- R102, R108: a printed integer reads back. -/
theorem parseInt_intText (v : Int) : parseInt (intText v) = some v := by
  cases v with
  | ofNat n =>
    obtain ⟨hne, hplain⟩ := natText_plain n
    obtain ⟨ch, rest, hcons⟩ := List.exists_cons_of_ne_nil hne
    obtain ⟨hminus, -⟩ := hplain ch (by simp [hcons])
    have hread := parseNat_natText n
    rw [hcons] at hread
    simp [intText, hcons, parseInt, hminus, hread]
  | negSucc n =>
    simp [intText, parseInt, parseNat_natText, Int.negSucc_eq]

/-! ### Words of a line -/

/-- A word of a line: it has a character, and no character of it separates tokens. -/
def IsWord (t : Text) : Prop := t ≠ [] ∧ ∀ ch ∈ t, isSeparator ch = false

/-- R108: a printed integer is one word. -/
theorem isWord_intText (v : Int) : IsWord (intText v) := by
  cases v with
  | ofNat n =>
    obtain ⟨hne, hplain⟩ := natText_plain n
    exact ⟨hne, fun ch hch => (hplain ch hch).2⟩
  | negSucc n =>
    obtain ⟨-, hplain⟩ := natText_plain (n + 1)
    refine ⟨List.cons_ne_nil _ _, fun ch hch => ?_⟩
    rcases List.mem_cons.mp hch with rfl | hch
    · decide
    · exact (hplain ch hch).2

/-- R20: a register's name is one word. -/
theorem isWord_nameOf (r : Reg) : IsWord (nameOf r) := by
  cases r <;> simp [IsWord, nameOf, isSeparator]

/-- R90: a mnemonic is one word. -/
theorem isWord_mnemonicOf (op : Opcode) : IsWord (mnemonicOf op) := by
  cases op <;> simp [IsWord, mnemonicOf, isSeparator]

/-- R108: every printed operand is one word. -/
theorem isWord_operandTexts (i : Instr) : ∀ t ∈ operandTexts i, IsWord t := by
  cases i <;> simp [operandTexts, isWord_intText, isWord_nameOf]

/-- R100: the tokens of words joined by single spaces are the words. -/
theorem tokens_intercalate {w : Text} {ws : List Text} (hw : IsWord w) (hws : ∀ t ∈ ws, IsWord t) :
    tokens ([' '].intercalate (w :: ws)) = w :: ws := by
  induction ws generalizing w with
  | nil =>
    obtain ⟨hne, hplain⟩ := hw
    rw [List.intercalate_singleton, tokens, List.splitOnP_eq_singleton hplain]
    simp [hne]
  | cons x ws ih =>
    obtain ⟨hne, hplain⟩ := hw
    have hrest := ih (hws x List.mem_cons_self) fun t ht => hws t (List.mem_cons_of_mem x ht)
    rw [tokens] at hrest
    rw [List.intercalate_cons_cons, List.append_assoc, List.singleton_append, tokens,
      List.splitOnP_append_cons_of_forall_mem hplain ' ' (by decide), List.filter_cons, hrest]
    simp [hne]

/-- R98: words joined by single spaces stay on one line. -/
theorem newline_not_mem_intercalate {ws : List Text} (hws : ∀ t ∈ ws, IsWord t) : '\n' ∉ [' '].intercalate ws := by
  induction ws with
  | nil => simp
  | cons w ws ih =>
    have hw : '\n' ∉ w := fun hmem => by simpa [isSeparator] using (hws w List.mem_cons_self).2 _ hmem
    have hrest := ih fun t ht => hws t (List.mem_cons_of_mem w ht)
    cases ws with
    | nil => simpa using hw
    | cons x ws => simpa [List.intercalate_cons_cons, hw] using hrest

/-! ### The assembler on a disassembled line -/

/-- R107: a mnemonic names its opcode. -/
theorem opcodeOf_mnemonicOf (op : Opcode) : opcodeOf (mnemonicOf op) = some op := by
  cases op <;> decide

/-- R107: a register's name names it. -/
theorem registerOf_nameOf (r : Reg) : registerOf (nameOf r) = some r := by
  cases r <;> decide

/-- R102, R103: the printed operands read back as the argument words. -/
theorem parseArgs_operandTexts (c : Config) (i : Instr) :
    parseArgs c i.opcode.kinds (operandTexts i) = some (encodeArgs c i) := by
  cases i <;>
    simp [Instr.opcode, Opcode.kinds, operandTexts, encodeArgs, parseArgs, parseArg, parseInt_intText, registerOf_nameOf]

/-- R108: the line of an instruction is made of its mnemonic and operands. -/
theorem tokens_disassemble (i : Instr) : tokens (disassemble i) = mnemonicOf i.opcode :: operandTexts i :=
  tokens_intercalate (isWord_mnemonicOf i.opcode) (isWord_operandTexts i)

/-- R103: the line of an instruction assembles to its words. -/
theorem assembleLine_disassemble (c : Config) (i : Instr) :
    assembleLine c (disassemble i) = .ok { image := encode c i, parseErrors := [] } := by
  simp only [assembleLine, tokens_disassemble, opcodeOf_mnemonicOf, parseArgs_operandTexts]
  rfl

/-- R98: the disassembled text is one line. -/
theorem splitOn_disassemble (i : Instr) : (disassemble i).splitOn '\n' = [disassemble i] := by
  refine List.splitOn_eq_singleton (newline_not_mem_intercalate fun t ht => ?_)
  rcases List.mem_cons.mp ht with rfl | ht
  · exact isWord_mnemonicOf i.opcode
  · exact isWord_operandTexts i t ht

/-- Settles O6: the text is one line, whose tokens name the opcode and read back as the argument words. -/
theorem disassemblyReassembles : Obligations.DisassemblyReassembles := by
  intro c i
  simp [assemble, splitOn_disassemble, assembleLines, assembleLine_disassemble]

/-! ### Lines that do not assemble -/

/-- R101: a line whose first token is no mnemonic emits the ERROR word and a report. -/
theorem assembleLine_unknownMnemonic (c : Config) {line first : Text} {others : List Text}
    (ht : tokens line = first :: others) (ho : opcodeOf first = none) :
    assembleLine c line = .ok { image := [c.opNum .error], parseErrors := [.parseError first] } := by
  simp only [assembleLine, ht, ho]

/-- R104: a line of a known mnemonic whose arguments do not fit its schema is refused. -/
theorem assembleLine_malformed {c : Config} {line first : Text} {others : List Text} {op : Opcode}
    (ht : tokens line = first :: others) (ho : opcodeOf first = some op) (hargs : parseArgs c op.kinds others = none) :
    assembleLine c line = .error (.malformedLine line) := by
  simp only [assembleLine, ht, ho, hargs]

/-- R104: a line is refused only as malformed, by its own text. -/
theorem assembleLine_error {c : Config} {line : Text} {e : Refusal} (h : assembleLine c line = .error e) :
    e = .malformedLine line := by
  unfold assembleLine at h
  split at h
  · cases h
  split at h
  · cases h
  split at h
  · cases h; rfl
  · cases h

/-- R104: lines of which one is refused are refused, and a line of them is named. -/
theorem assembleLines_of_error {c : Config} {lines : List Text} {line : Text} {e : Refusal} (hmem : line ∈ lines)
    (h : assembleLine c line = .error e) : ∃ bad ∈ lines, assembleLines c lines = .error (.malformedLine bad) := by
  induction lines with
  | nil => cases hmem
  | cons first lines ih =>
    cases hfirst : assembleLine c first with
    | error e' =>
      rw [assembleLine_error hfirst] at hfirst
      exact ⟨first, List.mem_cons_self, by simp only [assembleLines, hfirst]⟩
    | ok a =>
      have hrest : line ∈ lines := by
        rcases List.mem_cons.mp hmem with rfl | hrest
        · simp [h] at hfirst
        · exact hrest
      obtain ⟨bad, hbad, hlines⟩ := ih hrest
      exact ⟨bad, List.mem_cons_of_mem first hbad, by simp only [assembleLines, hfirst, hlines]⟩

/-- Settles O8: the line by its equation, the source's example by running it. -/
theorem unknownMnemonicEmitsErrorWord : Obligations.UnknownMnemonicEmitsErrorWord :=
  ⟨fun c _ _ _ => assembleLine_unknownMnemonic c, by rfl⟩

/-- Settles O9: the malformed line is refused, hence the text with it. -/
theorem malformedLineRefusesText : Obligations.MalformedLineRefusesText :=
  fun _ _ _ _ _ _ hline ht ho hargs => assembleLines_of_error hline (assembleLine_malformed ht ho hargs)

end Sys2Proof.Machine
end

section
/-! The eight instructions (`41_noop_error.md` to `44_jump.md`): a register write that fits completes, one that does not
faults, and what an effect leaves unchanged on every path (R22, R127, R216). -/

namespace Sys2Proof.Machine

variable {s t : State} {i : Instr}

/-! ### Completing, raising, and the frame of an effect -/

/-- R128: an instruction recorded without a write has completed. -/
theorem Completed.of_record (i : Instr) (s : State) : Completed i s (s.record i) where
  registers _ _ := s.record_reg i _
  status := rfl
  last := rfl
  config := rfl

/-- R128: an instruction recorded after its register write has completed. -/
theorem Completed.of_setReg {r : Reg} (hw : i.written = some r) (s : State) (v : Int) :
    Completed i s ((s.setReg r v).record i) where
  registers q hq := by
    have hne : q ≠ r := by
      rintro rfl
      exact hq hw
    simp [State.reg_setReg_other s v hne]
  status := by simp
  last := rfl
  config := by simp

/-- R128: an MSET recorded after its store has completed. -/
theorem Completed.of_memWrite (i : Instr) (s : State) (a v : Int) : Completed i s ((s.memWrite a v).record i) where
  registers _ _ := by simp
  status := rfl
  last := rfl
  config := rfl

/-- R127, R216: an effect completes its instruction, or it raises and changes nothing but the status. -/
theorem Effect.completed_or_raised (h : Effect i s t) :
    Completed i s t ∨ t.status.terminal = true ∧ t = s.raise t.status := by
  cases h with
  | plain _ => exact .inl (.of_record i s)
  | register r v hw _ => exact .inl (.of_setReg hw s v)
  | cell a r _ _ => exact .inl (.of_memWrite i s a _)
  | _ => exact .inr ⟨rfl, rfl⟩

/-- R22: an effect changes no register but the one its instruction writes. -/
theorem Effect.reg_eq (h : Effect i s t) {q : Reg} (hq : i.written ≠ some q) : t.reg q = s.reg q := by
  rcases h.completed_or_raised with hdone | ⟨-, hraised⟩
  · exact hdone.registers q hq
  · rw [hraised, State.raise_reg]

/-- R67: the effect of an instruction other than MSET leaves memory. -/
theorem Effect.keepsMemory (h : Effect i s t) (hi : i.opcode ≠ .mset) : s.KeepsMemory t := by
  rcases h.mem_eq_or_mset with hmem | ⟨address, reg, rfl, -, -⟩
  · intro a
    rw [hmem]
  · exact absurd rfl hi

/-- R170: the effect of MSET leaves every cell but the one at its address. -/
theorem Effect.mem_read_of_mset {address : Int} {reg : Reg} (h : Effect (.mset address reg) s t) {a : Nat}
    (ha : a ≠ (addrOperand address).toNat) : t.mem.read a = s.mem.read a := by
  rcases h.mem_eq_or_mset with hmem | ⟨_, _, heq, -, rfl⟩
  · rw [hmem]
  · cases heq
    exact Memory.read_write_other s.mem _ ha

/-- Settles O36: an effect's memory, registers and ending, each by its lemma. -/
theorem frameOfInstructionsThatStoreNothing : Obligations.FrameOfInstructionsThatStoreNothing :=
  fun _ _ _ hi h =>
    have effect := exec_effect h
    ⟨effect.keepsMemory hi, fun _ => effect.reg_eq, effect.completed_or_raised⟩

/-- Settles O37: MSET writes no register, and its effect is at its address operand alone. -/
theorem frameOfMset : Obligations.FrameOfMset :=
  fun _ _ _ _ h =>
    have effect := exec_effect h
    ⟨fun _ => effect.reg_eq nofun, fun _ => effect.mem_read_of_mset, effect.completed_or_raised⟩

/-! ### The register write -/

/-- R129, R160: a register write that fits leaves the value in the register, completes and leaves memory. -/
theorem finishWrite_completes {r : Reg} {v : Int} (hw : i.written = some r) (hv : s.cfg.fits v = true) :
    ∃ t, finishWrite i r v s = .next t ∧ t.reg r = v ∧ Completed i s t ∧ s.KeepsMemory t :=
  ⟨_, finishWrite_fits hv r, by simp, .of_setReg hw s v, fun a => by simp⟩

/-- R191: a write of IP that fits is a jump to the value. -/
theorem finishWrite_ip {v : Int} (hv : s.cfg.fits v = true) : ∃ t, finishWrite i .ip v s = .next t ∧ t.ip = v :=
  ⟨_, finishWrite_fits hv .ip, rfl⟩

/-- R171: MGET of a set cell is a register write of what the cell holds. -/
theorem exec_mget_set {address v : Int} {reg : Reg} (ha : s.cfg.okAddr address = true)
    (hm : s.memRead address = some v) :
    exec (.mget address reg) s = finishWrite (.mget address reg) reg v s := by
  simp only [exec, execMget, addrOperand, withAddress_ok ha, hm]

/-- R190: JILT with its register below the literal is a write of IP. -/
theorem exec_jilt_taken {reg : Reg} {literal target : Int} (h : s.reg reg < literal) :
    exec (.jilt reg literal target) s = finishWrite (.jilt reg literal target) .ip target s := by
  simp [exec, execJilt, lessThan, regOperand, litOperand, posOperand, h]

/-- R190: JILT with its register not below the literal only completes. -/
theorem exec_jilt_not_taken {reg : Reg} {literal target : Int} (h : ¬ s.reg reg < literal) :
    exec (.jilt reg literal target) s = .next (s.record (.jilt reg literal target)) := by
  simp [exec, execJilt, lessThan, regOperand, litOperand, h]

/-- R170: MSET at a valid address stores its register and completes. -/
theorem exec_mset_ok {address : Int} {reg : Reg} (ha : s.cfg.okAddr address = true) :
    exec (.mset address reg) s = .next ((s.memWrite address (s.reg reg)).record (.mset address reg)) :=
  withAddress_ok ha _

/-- Settles O28: RSET is a register write of its literal. -/
theorem rsetSetsItsRegister : Obligations.RsetSetsItsRegister :=
  fun _ _ _ hv => finishWrite_completes rfl hv

/-- Settles O29: RCPY is a register write of its source's value. -/
theorem rcpyCopiesSourceToDestination : Obligations.RcpyCopiesSourceToDestination :=
  fun _ _ _ hv => finishWrite_completes rfl hv

/-- Settles O30: RADD is a register write of the sum. -/
theorem raddAddsExactly : Obligations.RaddAddsExactly :=
  fun _ _ _ hv => finishWrite_completes rfl hv

/-- Settles O32: MGET of a set cell is a register write of what it holds. -/
theorem mgetLoadsASetCell : Obligations.MgetLoadsASetCell := by
  intro s address reg v ha hm hv
  rw [exec_mget_set ha hm]
  exact finishWrite_completes rfl hv

/-- Settles O33: the taken jump is a write of IP, the other one only completes. -/
theorem jiltJumpsIffLess : Obligations.JiltJumpsIffLess := by
  intro s reg literal target hfits
  by_cases hless : s.reg reg < literal
  · rw [exec_jilt_taken hless, if_pos hless]
    exact finishWrite_completes rfl (hfits hless)
  · exact ⟨_, exec_jilt_not_taken hless, (if_neg hless).symm, .of_record _ s, fun _ => rfl⟩

/-- Settles O31: the store reads back at its address and nowhere else. -/
theorem msetStoresItsRegister : Obligations.MsetStoresItsRegister :=
  fun s address _ ha =>
    ⟨_, exec_mset_ok ha, s.mem.read_write_same _ _, fun _ hne => s.mem.read_write_other _ hne,
      .of_memWrite _ s address _⟩

/-- Settles O38: IP is the register written. -/
theorem writingIpTransfersControl : Obligations.WritingIpTransfersControl := by
  refine fun s => ⟨fun n hv => finishWrite_ip hv, fun r hv => finishWrite_ip hv, fun r hv => finishWrite_ip hv, ?_⟩
  intro m v ha hm hv
  rw [exec_mget_set ha hm]
  exact finishWrite_ip hv

/-! ### Effects that raise, and the two instructions without operands -/

/-- Settles O34: each of the five is a register write, here of a value that does not fit. -/
theorem registerWriteOutOfRangeFaults : Obligations.RegisterWriteOutOfRangeFaults := by
  refine fun s => ⟨fun reg _ hv => finishWrite_not_fits hv reg,
    fun _ dest hv => finishWrite_not_fits hv dest, fun accum _ hv => finishWrite_not_fits hv accum, ?_, ?_⟩
  · intro address _ v ha hm hv
    rw [exec_mget_set ha hm, finishWrite_not_fits hv]
    rfl
  · intro _ literal target hless hv
    rw [exec_jilt_taken hless, finishWrite_not_fits hv]
    rfl

/-- Settles O35: the address test comes before the access, and an unset cell holds nothing to load. -/
theorem memoryAccessFaults : Obligations.MemoryAccessFaults := by
  refine fun s address reg => ⟨fun ha => ⟨withAddress_not_ok ha _, withAddress_not_ok ha _⟩, fun ha hm => ?_⟩
  simp only [exec, execMget, addrOperand, withAddress_ok ha, hm]
  rfl

/-- Settles O25: NOOP only completes. -/
theorem noopCompletes : Obligations.NoopCompletes := fun _ => rfl

/-- Settles O26: the parameter selects the fault. -/
theorem errorRaisesFault : Obligations.ErrorRaisesFault := by
  intro s hp
  simp only [exec, execError, hp]
  rfl

/-- Settles O27: the parameter selects the completion, or the report. -/
theorem errorUnderItsOtherParameters : Obligations.ErrorUnderItsOtherParameters := by
  refine fun s => ⟨fun hp => ?_, fun hp => ?_⟩
  · simp only [exec, execError, hp]
    rfl
  · simp only [exec, execError, hp]
    rfl

end Sys2Proof.Machine
end

section
/-! Words at IP and their fetch (`40_step_cycle.md` R121 to R126): how `canFetch` and `holds` split, and what the fetch of an
instruction answers when its words are there, when one is missing, and when one names no register. -/

namespace Sys2Proof.Machine

variable {s t : State} {i : Instr} {op : Opcode} {v : List Int}

/-! ### Splitting the words at IP -/

theorem State.canFetch_mono {m n : Nat} (h : s.canFetch n) (hmn : m ≤ n) : s.canFetch m :=
  fun k hk => h k (hk.trans_le hmn)

/-- R124: to fetch `m + n` words is to fetch `m`, and from there `n`. -/
theorem State.canFetch_add {m n : Nat} :
    s.canFetch (m + n) ↔ s.canFetch m ∧ (s.withIp (s.ip + m)).canFetch n := by
  constructor
  · refine fun h => ⟨State.canFetch_mono h (Nat.le_add_right m n), fun k hk => ?_⟩
    simpa [add_assoc] using h (m + k) (by omega)
  · rintro ⟨hm, hn⟩ k hk
    by_cases hlow : k < m
    · exact hm k hlow
    · obtain ⟨j, rfl⟩ := Nat.exists_eq_add_of_le (not_lt.mp hlow)
      simpa [add_assoc] using hn j (by omega)

/-- R51: an address among those that can be fetched is valid. -/
theorem State.okAddr_of_canFetch {n : Nat} {a : Int} (h : s.canFetch n) (hlow : s.ip ≤ a) (hhigh : a < s.ip + n) :
    s.cfg.okAddr a = true := by
  obtain ⟨hok, -⟩ := h (a - s.ip).toNat (by omega)
  rwa [show s.ip + ((a - s.ip).toNat : Int) = a by omega] at hok

/-- R80: words stand one after the other. -/
theorem State.holds_cons {a w : Int} {ws : List Int} :
    s.holds a (w :: ws) ↔ s.memRead a = some w ∧ s.holds (a + 1) ws := by
  constructor
  · refine fun h => ⟨by simpa using h 0 w rfl, fun k x hx => ?_⟩
    simpa [add_assoc, add_comm, add_left_comm] using h (k + 1) x (by simpa using hx)
  · rintro ⟨hw, hws⟩ k x hx
    cases k with
    | zero => simpa [hw] using hx
    | succ k => simpa [add_assoc, add_comm, add_left_comm] using hws k x (by simpa using hx)

/-- R50: a write leaves the words above it. -/
theorem State.holds_memWrite_of_lt {a b x : Int} {ws : List Int} (ha : 0 ≤ a) (hab : a < b) (h : s.holds b ws) :
    (s.memWrite a x).holds b ws := by
  intro k w hw
  have hne : (b + (k : Int)).toNat ≠ a.toNat := by omega
  exact (s.mem.read_write_other x hne).trans (h k w hw)

/-! ### The fetch of an instruction -/

/-- R124: the argument words of an opcode whose words are all there. -/
theorem fetchArgs_of_words (hl : v.length = op.arity) (hh : s.holds s.ip (s.cfg.opNum op :: v))
    (hc : s.canFetch (1 + op.arity)) :
    fetchArgs op.arity op.arity 0 (s.withIp (s.ip + 1)) = .got v (s.withIp (s.ip + 1 + op.arity)) := by
  obtain ⟨-, hargs⟩ := State.holds_cons.mp hh
  obtain ⟨-, hrest⟩ := State.canFetch_add.mp hc
  exact fetchArgs_of_holds hl hrest hargs

/-- R126: the fetch of an instruction whose words are all there and decode. -/
theorem fetchInstr_of_decodeArgs_ok (hop : s.cfg.opDec (s.cfg.opNum op) = some op) (hl : v.length = op.arity)
    (hh : s.holds s.ip (s.cfg.opNum op :: v)) (hc : s.canFetch (1 + op.arity)) (hv : s.cfg.decodeArgs op v = .ok i) :
    fetchInstr s = .got i (s.withIp (s.ip + 1 + op.arity)) := by
  obtain ⟨hword, -⟩ := State.holds_cons.mp hh
  simp only [fetchInstr_opcode (State.canFetch_mono hc (by omega)) hword hop, fetchArgs_of_words hl hh hc,
    State.withIp_cfg, hv]

/-- R126: the fetch of an instruction whose words are all there and do not decode. -/
theorem fetchInstr_of_decodeArgs_error {e : DecodeError} (hop : s.cfg.opDec (s.cfg.opNum op) = some op)
    (hl : v.length = op.arity) (hh : s.holds s.ip (s.cfg.opNum op :: v)) (hc : s.canFetch (1 + op.arity))
    (hv : s.cfg.decodeArgs op v = .error e) :
    fetchInstr s = .raised ((s.withIp (s.ip + 1 + op.arity)).raise (decodeStatus e)) := by
  obtain ⟨hword, -⟩ := State.holds_cons.mp hh
  simp only [fetchInstr_opcode (State.canFetch_mono hc (by omega)) hword hop, fetchArgs_of_words hl hh hc,
    State.withIp_cfg, hv]

/-- R120, R121, R124, R126: the fetch at words that decode. -/
theorem fetchInstr_of_decode {ws : List Int} (hd : decode s.cfg ws = .ok (i, [])) (hh : s.holds s.ip ws)
    (hc : s.canFetch ws.length) : fetchInstr s = .got i (s.withIp (s.ip + ws.length)) := by
  obtain ⟨hop, hargs, rfl⟩ := decode_ok hd
  rw [List.append_nil] at hh hc ⊢
  rw [encode_length] at hc ⊢
  rw [fetchInstr_of_decodeArgs_ok hop (encodeArgs_length _ i) hh hc hargs]
  simp [Instr.length, add_assoc]

section Arguments

variable {k : Nat} (hop : s.cfg.opDec (s.cfg.opNum op) = some op) (hm : s.memRead s.ip = some (s.cfg.opNum op))
  (hk : k < op.arity) (hb : ∀ j : Nat, j < k → s.memRead (s.ip + 1 + j) ≠ none)

include hop hm hk hb

/-- R124: an instruction whose argument words before `k` are set and whose word `k` cannot be fetched. -/
theorem fetchInstr_of_argument_raised (hc : s.canFetch (k + 1)) (hw : fetchWord (s.withIp (s.ip + 1 + k)) = .raised t) :
    fetchInstr s = .raised t := by
  rw [Nat.add_comm, State.canFetch_add] at hc
  obtain ⟨hc1, hck⟩ := hc
  simp only [fetchInstr_opcode hc1 hm hop, fetchArgs_raises (s := s.withIp (s.ip + 1)) hk hck hb hw]

/-- R125: an instruction whose argument words before `k` are set and whose word `k` is unset. -/
theorem fetchInstr_of_argument_unset (hc : s.canFetch (k + 2)) (hu : s.memRead (s.ip + 1 + k) = none) :
    fetchInstr s = .raised ((s.withIp (s.ip + k + 2)).raise (.error (.arityMismatch op.arity k))) := by
  rw [show k + 2 = 1 + (k + 1) by omega, State.canFetch_add] at hc
  obtain ⟨hc1, hck⟩ := hc
  simp only [fetchInstr_opcode hc1 hm hop, fetchArgs_unset (s := s.withIp (s.ip + 1)) hk hck hb hu, State.withIp_withIp,
    State.withIp_ip, Nat.zero_add]
  rw [show s.ip + 1 + (k : Int) + 1 = s.ip + k + 2 by omega]

end Arguments

/-! ### The step that fetches -/

/-- R127: where the fetch gets an instruction, the step is its effect. -/
theorem step_of_fetchInstr_got (hs : s.status.terminal = false) (h : fetchInstr (s.raise .running) = .got i t) :
    step s = exec i t := by
  rw [step_performed hs, State.resume_eq hs, stepCore, h]

/-- R129: where the fetch of the running session raises, the step ends there. -/
theorem step_of_fetchInstr_raise_running (hs : s.status.terminal = false)
    (h : fetchInstr (s.raise .running) = .raised t) : step s = .next t :=
  step_of_fetchInstr_raised hs (by rw [State.resume_eq hs, h])

/-- Settles O15: the fetch gets the instruction read from the words, with IP past them. -/
theorem stepRunsTheDecodedInstruction : Obligations.StepRunsTheDecodedInstruction :=
  fun s _ _ hs hd hh hc => step_of_fetchInstr_got hs (fetchInstr_of_decode (s := s.raise .running) hd hh hc)

/-- Settles O19: the fetch of the word at the invalid address raises, and so does the step. -/
theorem fetchAtInvalidAddressFaults : Obligations.FetchAtInvalidAddressFaults := by
  refine fun s hs => ⟨fun ha => step_of_fetchInstr_raise_running hs ?_, fun op k hwf hm hk hc hb ha => ?_⟩
  · simp only [fetchInstr, fetchWord_badAddress (s := s.raise .running) ha]
    rfl
  · exact step_of_fetchInstr_raise_running hs (fetchInstr_of_argument_raised (s := s.raise .running)
      (Config.opDec_opNum hwf op) hm hk hb hc (fetchWord_badAddress ha))

/-- Settles O24: the increment past the word raises before the word is looked at, and so does the step. -/
theorem fetchIncrementOutOfRangeFaults : Obligations.FetchIncrementOutOfRangeFaults := by
  refine fun s hs => ⟨fun ha hf => step_of_fetchInstr_raise_running hs ?_, fun op k hwf hm hk hc hb ha hf => ?_⟩
  · simp only [fetchInstr, fetchWord_valueRange (s := s.raise .running) ha hf]
    rfl
  · have hip : s.ip + 2 + k = s.ip + 1 + k + 1 := by omega
    rw [hip] at hf ⊢
    exact step_of_fetchInstr_raise_running hs (fetchInstr_of_argument_raised (s := s.raise .running)
      (Config.opDec_opNum hwf op) hm hk hb hc (fetchWord_valueRange ha hf))

/-- Settles O22: the fetch of the argument words ends past the unset one, and the step with it. -/
theorem unsetArgumentWordStops : Obligations.UnsetArgumentWordStops :=
  fun s op _ hs hwf hm hk hc hb hu => step_of_fetchInstr_raise_running hs
    (fetchInstr_of_argument_unset (s := s.raise .running) (Config.opDec_opNum hwf op) hm hk hb hc hu)

/-! ### Words that name no register -/

/-- R95: a word that names no register does not resolve. -/
theorem regArg_of_regDec_none {c : Config} {w : Int} (h : c.regDec w = none) : c.regArg w = .error (.badRegister w) := by
  simp [Config.regArg, h]

/-- R87: a word that names a register resolves. -/
theorem exists_regArg_of_regDec {c : Config} {w : Int} (h : c.regDec w ≠ none) : ∃ r, c.regArg w = .ok r := by
  obtain ⟨r, hr⟩ := Option.ne_none_iff_exists'.mp h
  exact ⟨r, by simp [Config.regArg, hr]⟩

/-- R126, R215: operand decode reports the lowest REG word that names no register. -/
theorem decodeArgs_of_lowest_badRegister {c : Config} {k : Nat} {w : Int} (hl : v.length = op.arity)
    (hk : op.kinds[k]? = some .reg) (hv : v[k]? = some w) (hbad : c.regDec w = none)
    (hlow : ∀ (j : Nat) (u : Int), j < k → op.kinds[j]? = some .reg → v[j]? = some u → c.regDec u ≠ none) :
    c.decodeArgs op v = .error (.badRegister w) := by
  have hw := regArg_of_regDec_none hbad
  cases op with
  | error | noop => simp [Opcode.kinds] at hk
  | rset =>
    obtain ⟨x, y, rfl⟩ := List.length_eq_two.mp hl
    obtain rfl : k = 0 := by rcases k with _ | _ | k <;> simp [Opcode.kinds] at hk ⊢
    cases hv
    simp only [Config.decodeArgs, hw]
    rfl
  | rcpy | radd =>
    obtain ⟨x, y, rfl⟩ := List.length_eq_two.mp hl
    rcases k with _ | _ | k
    · cases hv
      simp only [Config.decodeArgs, hw]
      rfl
    · cases hv
      obtain ⟨r, hr⟩ := exists_regArg_of_regDec (hlow 0 x Nat.one_pos rfl rfl)
      simp only [Config.decodeArgs, hr, hw]
      rfl
    · simp [Opcode.kinds] at hk
  | mset | mget =>
    obtain ⟨x, y, rfl⟩ := List.length_eq_two.mp hl
    obtain rfl : k = 1 := by rcases k with _ | _ | k <;> simp [Opcode.kinds] at hk ⊢
    cases hv
    simp only [Config.decodeArgs, hw]
    rfl
  | jilt =>
    obtain ⟨x, y, z, rfl⟩ := List.length_eq_three.mp hl
    obtain rfl : k = 0 := by rcases k with _ | _ | _ | k <;> simp [Opcode.kinds] at hk ⊢
    cases hv
    simp only [Config.decodeArgs, hw]
    rfl

/-- Settles O23: the words are all fetched, and operand decode reports the word. -/
theorem badRegisterWordFaults : Obligations.BadRegisterWordFaults := by
  intro s op v k w hs hwf hl hh hc hk hv hw hlow
  have hbad : s.cfg.regDec w = none := (Config.regDec_eq_none_iff_outside hwf).mpr hw
  have hdecode := decodeArgs_of_lowest_badRegister hl hk hv hbad fun j u hj hkind hu hnone => by
    have hrange := hlow j u hj hkind hu
    have houtside := (Config.regDec_eq_none_iff_outside hwf).mp hnone
    omega
  exact step_of_fetchInstr_raise_running hs
    (fetchInstr_of_decodeArgs_error (s := s.raise .running) (Config.opDec_opNum hwf op) hl hh hc hdecode)

/-! ### An MSET at IP -/

/-- R127: the step at an MSET to a valid address stores the register as it stands after the fetch, and completes past the
three words it fetched. -/
theorem step_mset {address : Int} {reg : Reg} (hs : s.status.terminal = false) (hwf : s.cfg.wellFormed = true)
    (hh : s.holds s.ip (encode s.cfg (.mset address reg))) (hc : s.canFetch 3) (ha : s.cfg.okAddr address = true) :
    step s = .next ((((s.withIp (s.ip + 3)).raise .running).memWrite address
      ((s.withIp (s.ip + 3)).reg reg)).record (.mset address reg)) := by
  have hfetch : fetchInstr (s.raise .running) = .got (.mset address reg) ((s.withIp (s.ip + 3)).raise .running) :=
    fetchInstr_of_decode (s := s.raise .running) (decode_encode hwf _) hh hc
  rw [step_of_fetchInstr_got hs hfetch, exec_mset_ok (s := (s.withIp (s.ip + 3)).raise .running) ha, State.raise_reg]

/-- Settles O39: the words were fetched before the store, so the step is the MSET's all the same. -/
theorem storeIntoTheInstructionItselfExecutesAsFetched :
    Obligations.StoreIntoTheInstructionItselfExecutesAsFetched :=
  fun s _ _ hs hwf hh hc hlow hhigh =>
    ⟨_, step_mset hs hwf hh hc (State.okAddr_of_canFetch hc hlow hhigh), rfl, rfl, rfl, s.mem.read_write_same _ _⟩

/-- R64, R170: the step at an MSET to the cell after it leaves IP at that cell, which holds the register's value, and the
words above it as they stood. -/
theorem step_mset_ahead {reg : Reg} (hs : s.status.terminal = false) (hwf : s.cfg.wellFormed = true)
    (hh : s.holds s.ip (encode s.cfg (.mset (s.ip + 3) reg))) (hc : s.canFetch 4) :
    ∃ t, step s = .next t ∧ t.status = .running ∧ t.ip = s.ip + 3 ∧ t.cfg = s.cfg ∧
      t.memRead t.ip = some ((s.withIp (s.ip + 3)).reg reg) ∧ ∀ ws, s.holds (s.ip + 4) ws → t.holds (s.ip + 4) ws := by
  have ha : s.cfg.okAddr (s.ip + 3) = true := State.okAddr_of_canFetch hc (by omega) (by omega)
  refine ⟨_, step_mset hs hwf hh (State.canFetch_mono hc (by omega)) ha, rfl, rfl, rfl, s.mem.read_write_same _ _, ?_⟩
  exact fun ws hws => State.holds_memWrite_of_lt (Config.okAddr_nonneg ha) (by omega) hws

/-- R124: a state that stands `m` words further can fetch what is left. -/
theorem State.canFetch_of_ip_eq {m n : Nat} (hcfg : t.cfg = s.cfg) (hip : t.ip = s.ip + m) (hc : s.canFetch (m + n)) :
    t.canFetch n := by
  obtain ⟨-, hn⟩ := State.canFetch_add.mp hc
  unfold State.canFetch
  rwa [hcfg, hip]

/-- Settles O40: after the store IP stands at the cell written, and the words above it are untouched. -/
theorem storeIsSeenByTheNextFetch : Obligations.StoreIsSeenByTheNextFetch := by
  intro s reg w hs hwf hh hc hw
  obtain ⟨t, hstep, hrun, hip, hcfg, hword, hcells⟩ := step_mset_ahead hs hwf hh hc
  have hword : t.memRead t.ip = some w := hword.trans (congrArg some hw)
  have hlive : t.status.terminal = false := by rw [hrun]; rfl
  have hip4 : t.ip + 1 = s.ip + 4 := by omega
  have hc1 : t.canFetch 1 := State.canFetch_of_ip_eq (m := 3) hcfg hip hc
  refine ⟨t, hstep, hrun, hip, ?_, fun hunknown => ?_, fun i rest hd hrest hcrest => ?_⟩
  · rw [fetchWord_of_canFetch hc1, hword, hip4]
  · rw [unknownOpcodeStops t w hlive hc1 hword (by rwa [hcfg]), hip4]
  · have hwords : t.holds t.ip (w :: rest) := State.holds_cons.mpr ⟨hword, by rw [hip4]; exact hcells rest hrest⟩
    have hfetch : t.canFetch (w :: rest).length :=
      State.canFetch_of_ip_eq (m := 3) hcfg hip (State.canFetch_mono hcrest (by rw [List.length_cons]; omega))
    rw [stepRunsTheDecodedInstruction t i _ hlive (by rwa [hcfg]) hwords hfetch, ← hrun,
      show t.ip + ((w :: rest).length : Int) = s.ip + 4 + rest.length by
        rw [List.length_cons]; push_cast; omega]

end Sys2Proof.Machine
end

section
/-! How a performed step ends (`40_step_cycle.md` R127 to R131; `60_exceptions.md` R216): either it raised, and only the
status and IP changed, IP by the words fetched; or it completed the instruction whose words stood at IP. -/

namespace Sys2Proof

/-- R80: no opcode has more than three argument words. -/
theorem Opcode.arity_le (op : Opcode) : op.arity ≤ 3 := by
  cases op <;> decide

/-- R80: no instruction is longer than four words. -/
theorem Instr.length_le (i : Instr) : i.length ≤ 4 := by
  have := Opcode.arity_le i.opcode
  simp only [Instr.length]
  omega

end Sys2Proof

namespace Sys2Proof.Machine

variable {s t u : State} {i : Instr} {op : Opcode}

/-- R10, R216: the state `t` is `s` with a terminal status, and with IP moved past at most `most` words, each of which could be
fetched. -/
def State.RaisedWithin (s : State) (most : Nat) (t : State) : Prop :=
  ∃ n ≤ most, s.canFetch n ∧ t.status.terminal = true ∧ t = (s.withIp (s.ip + n)).raise t.status

/-- A raise where IP stands. -/
theorem State.raisedWithin_raise {k : Status} (hk : k.terminal = true) (most : Nat) :
    s.RaisedWithin most (s.raise k) :=
  ⟨0, Nat.zero_le _, fun j hj => absurd hj (Nat.not_lt_zero j), hk, by simp⟩

/-- A raise past `n` words is a raise from the words before them. -/
theorem State.RaisedWithin.after {m n : Nat} (hc : s.canFetch m) (h : (s.withIp (s.ip + m)).RaisedWithin n t) :
    s.RaisedWithin (m + n) t := by
  obtain ⟨k, hk, hck, hterminal, ht⟩ := h
  refine ⟨m + k, by omega, State.canFetch_add.mpr ⟨hc, hck⟩, hterminal, ht.trans ?_⟩
  simp [add_assoc]

theorem State.RaisedWithin.mono {m n : Nat} (h : s.RaisedWithin m t) (hmn : m ≤ n) : s.RaisedWithin n t := by
  obtain ⟨k, hk, hrest⟩ := h
  exact ⟨k, hk.trans hmn, hrest⟩

/-- A raise past exactly the words that could be fetched. -/
theorem State.raisedWithin_of_canFetch {n : Nat} {k : Status} (hc : s.canFetch n) (hk : k.terminal = true) :
    s.RaisedWithin n ((s.withIp (s.ip + n)).raise k) :=
  State.RaisedWithin.after (n := 0) hc (State.raisedWithin_raise hk 0)

/-- R124, R125: a raising fetch of argument words moves IP past at most the word it stopped at. -/
theorem ArgsRaised.raisedWithin {n k : Nat} (h : ArgsRaised n k s t) : s.RaisedWithin 1 t := by
  cases h with
  | unset ha hf _ =>
    refine State.raisedWithin_of_canFetch (n := 1) (fun j hj => ?_) rfl
    obtain rfl : j = 0 := by omega
    simpa using ⟨ha, hf⟩
  | valueRange _ => exact State.raisedWithin_raise rfl 1
  | badAddress _ => exact State.raisedWithin_raise rfl 1

/-- R121 to R126: a raising fetch moves IP past at most the words of one instruction. -/
theorem FetchRaised.raisedWithin (h : FetchRaised s t) : s.RaisedWithin 4 t := by
  cases h with
  | badAddress _ => exact State.raisedWithin_raise rfl 4
  | valueRange _ => exact State.raisedWithin_raise rfl 4
  | halted hc _ => exact (State.raisedWithin_of_canFetch hc rfl).mono (by omega)
  | unknownOpcode w hc _ _ => exact (State.raisedWithin_of_canFetch hc rfl).mono (by omega)
  | argument op k hc _ hk _ _ hr =>
    have hip : s.ip + 1 + (k : Int) = s.ip + (k + 1 : Nat) := by push_cast; omega
    have harity := Opcode.arity_le op
    rw [hip] at hr
    exact (State.RaisedWithin.after hc hr.raisedWithin).mono (by omega)
  | badRegister op _ _ w hc _ _ _ _ _ =>
    have hip : s.ip + 1 + (op.arity : Int) = s.ip + (op.arity + 1 : Nat) := by push_cast; omega
    have harity := Opcode.arity_le op
    rw [hip]
    exact (State.raisedWithin_of_canFetch hc rfl).mono (by omega)

/-- The session running with IP past its next `n` words: what an effect is given (R26, R127). -/
def State.fetched (s : State) (n : Nat) : State := { s with status := .running, ip := s.ip + n }

@[simp] theorem State.fetched_status (s : State) (n : Nat) : (s.fetched n).status = .running := rfl

/-- Beside IP, a register reads as before the fetch. -/
theorem State.fetched_reg_other (s : State) (n : Nat) {q : Reg} (hq : q ≠ .ip) : (s.fetched n).reg q = s.reg q :=
  State.reg_mk_other s _ _ _ _ _ hq

/-- Everything a performed step can be: cite this where the state after it is all that matters. -/
inductive Performed (s : State) (t : State) : Prop
  /-- The fetch raised. -/
  | fetchRaised (h : FetchRaised (s.raise .running) t)
  /-- The words of `i` stood at IP, and `t` is what its effect leaves. -/
  | executed (i : Instr) (hh : s.holds s.ip (encode s.cfg i)) (hc : s.canFetch i.length)
      (hd : s.cfg.opDec (s.cfg.opNum i.opcode) = some i.opcode) (hexec : exec i (s.fetched i.length) = .next t)

/-- R127 to R129: a step outside the terminal statuses is performed. -/
theorem performed_of_step (hs : s.status.terminal = false) (h : step s = .next t) : Performed s t := by
  have hresume := State.resume_eq hs
  rcases step_cases h with ⟨hterminal, -⟩ | ⟨-, hraised⟩ | ⟨-, i, u, hfetch, hexec⟩
  · simp [hs] at hterminal
  · rw [hresume] at hraised
    exact .fetchRaised hraised
  · rw [hresume] at hfetch
    obtain ⟨rfl, hh, hc, hd⟩ := fetchInstr_got hfetch
    exact .executed i hh hc hd hexec

/-- R202: a step is performed, or the status is terminal and nothing changes. -/
theorem step_next_cases (h : step s = .next t) :
    (s.status.terminal = true ∧ t = s) ∨ (s.status.terminal = false ∧ Performed s t) := by
  cases hs : s.status.terminal with
  | true =>
    rw [step_terminal hs] at h
    cases h
    exact .inl ⟨rfl, rfl⟩
  | false => exact .inr ⟨rfl, performed_of_step hs h⟩

/-- R128, R216: a performed step raised and changed IP and the status alone, or completed the instruction at IP. -/
theorem Performed.raised_or_completed (h : Performed s t) :
    s.RaisedWithin 4 t ∨ ∃ i, s.holds s.ip (encode s.cfg i) ∧ s.canFetch i.length ∧
      exec i (s.fetched i.length) = .next t ∧ Completed i (s.fetched i.length) t := by
  cases h with
  | fetchRaised h => exact .inl h.raisedWithin
  | executed i hh hc _ hexec =>
    rcases (exec_effect hexec).completed_or_raised with hdone | ⟨hterminal, ht⟩
    · exact .inr ⟨i, hh, hc, hexec, hdone⟩
    · exact .inl ⟨i.length, Instr.length_le i, hc, hterminal, ht⟩

/-- R201: a completed step leaves the session running. -/
theorem Completed.status_running {n : Nat} (h : Completed i (s.fetched n) t) : t.status = .running := h.status

/-- A raising step does not leave the session running. -/
theorem State.RaisedWithin.status_ne_running {n : Nat} (h : s.RaisedWithin n t) : t.status ≠ .running := by
  obtain ⟨-, -, -, hterminal, -⟩ := h
  intro hrun
  simp [hrun, Status.terminal] at hterminal

/-- Settles O44: of the two endings, only the raise leaves a status other than Running. -/
theorem exceptionsArePrecise : Obligations.ExceptionsArePrecise := by
  intro s t hs h hstopped
  rcases (performed_of_step hs h).raised_or_completed with ⟨n, hn, -, hterminal, ht⟩ | ⟨i, -, -, -, hdone⟩
  · have hip : t.ip = s.ip + n := by rw [ht]; rfl
    refine ⟨hterminal, by omega, by omega, ?_⟩
    rw [hip]
    exact ht
  · exact absurd hdone.status_running hstopped

/-- Settles O45: of the two endings, only the completion leaves the session running. -/
theorem completedStepRecordsWhatItFetched : Obligations.CompletedStepRecordsWhatItFetched := by
  intro s t hs h hrun
  rcases (performed_of_step hs h).raised_or_completed with hraised | ⟨i, hh, hc, hexec, hdone⟩
  · exact absurd hrun hraised.status_ne_running
  · exact ⟨i, hdone.last, hh, hc, hexec⟩

/-- Settles O43: a raise keeps all but IP and the status; a completed instruction has the frame of its effect, and its fetch
moved IP alone. -/
theorem stepChangesOneRegisterOrOneCell : Obligations.StepChangesOneRegisterOrOneCell := by
  intro s t h
  rcases step_next_cases h with ⟨hs, rfl⟩ | ⟨hs, hperformed⟩
  · refine ⟨fun _ => ⟨fun _ => rfl, fun _ _ => rfl⟩, fun hrun => ?_⟩
    simp [hrun, Status.terminal] at hs
  rcases hperformed.raised_or_completed with hraised | ⟨i, -, -, hexec, hdone⟩
  · refine ⟨fun _ => ?_, fun hrun => absurd hrun hraised.status_ne_running⟩
    obtain ⟨n, -, -, -, ht⟩ := hraised
    rw [ht]
    exact ⟨fun _ => rfl, fun q hq => (State.raise_reg _ _ q).trans (s.withIp_reg_other _ hq)⟩
  · have heffect := exec_effect hexec
    refine ⟨fun hstopped => absurd hdone.status_running hstopped, fun _ => ⟨i, hdone.last, fun hi => ?_, ?_⟩⟩
    · exact ⟨heffect.keepsMemory hi, fun q hq hw => (heffect.reg_eq hw).trans (s.fetched_reg_other _ hq)⟩
    · rintro address reg rfl
      refine ⟨fun q hq => (heffect.reg_eq ?_).trans (s.fetched_reg_other _ hq), fun _ => heffect.mem_read_of_mset⟩
      simp [Instr.written]

/-- Log 1: a step keeps the parameters. -/
theorem step_cfg (h : step s = .next t) : t.cfg = s.cfg := by
  rcases step_next_cases h with ⟨-, rfl⟩ | ⟨-, hperformed⟩
  · rfl
  rcases hperformed.raised_or_completed with ⟨n, -, -, -, ht⟩ | ⟨i, -, -, -, hdone⟩
  · rw [ht]
    rfl
  · exact hdone.config

/-! ### The step is total -/

/-- R129: a register write answers a next state, made or not. -/
theorem finishWrite_total (i : Instr) (r : Reg) (v : Int) (s : State) : ∃ t, finishWrite i r v s = .next t := by
  unfold finishWrite
  split <;> exact ⟨_, rfl⟩

/-- R51: an access answers a next state if it does at a valid address. -/
theorem withAddress_total {access : Result} (h : ∃ t, access = .next t) (a : Int) (s : State) :
    ∃ t, withAddress a s access = .next t := by
  unfold withAddress
  split
  · exact h
  · exact ⟨_, rfl⟩

/-- R127: every effect answers a next state. -/
theorem exec_total (i : Instr) (s : State) : ∃ t, exec i s = .next t := by
  cases i with
  | error =>
    simp only [exec, execError]
    split <;> exact ⟨_, rfl⟩
  | noop => exact ⟨_, rfl⟩
  | rset | rcpy | radd => exact finishWrite_total _ _ _ s
  | mset => exact withAddress_total ⟨_, rfl⟩ _ s
  | mget =>
    refine withAddress_total ?_ _ s
    split
    · exact ⟨_, rfl⟩
    · exact finishWrite_total _ _ _ s
  | jilt =>
    simp only [exec, execJilt]
    split
    · exact finishWrite_total _ _ _ s
    · exact ⟨_, rfl⟩

/-- R129: the common part and the effect answer a next state. -/
theorem stepCore_total (s : State) : ∃ t, stepCore s = .next t := by
  unfold stepCore
  split
  · exact ⟨_, rfl⟩
  · exact exec_total _ _

/-- R130: the step answers a next state in every state. -/
theorem step_total (s : State) : ∃ t, step s = .next t := by
  cases hs : s.status.terminal with
  | true => exact ⟨s, step_terminal hs⟩
  | false =>
    rw [step_performed hs]
    exact stepCore_total _

/-- Settles O16: the step answers in a terminal status, and the common part and the effect answer in every other. -/
theorem stepAlwaysAnswersANextState : Obligations.StepAlwaysAnswersANextState := step_total

/-! ### What a step hands out -/

section Emissions

variable (h : step s = .next t)

include h

/-- R42, R120, R258: in a terminal status the host's step emits nothing. -/
theorem hostStep_of_terminal (hs : s.status.terminal = true) :
    hostStep s = .next { session := t, answer := .status t.status, observer := [], sink := [], renderer := [] } := by
  simp [hostStep, h, hs]

/-- R42, R217, R258: a performed step emits by the status it leaves. -/
theorem hostStep_of_performed (hs : s.status.terminal = false) :
    hostStep s = .next
      { session := t, answer := .status t.status, observer := observed t, sink := reported t, renderer := [rendered t] } := by
  simp [hostStep, h, hs]

end Emissions

/-- R42: nothing is observed of a step that does not complete. -/
theorem observed_of_not_running (h : t.status ≠ .running) : observed t = [] := by
  unfold observed
  split
  · contradiction
  all_goals rfl

/-- Settles O59: the host's step by its two equations, what is emitted by the status. -/
theorem stepEmitsSnapshotOrReport : Obligations.StepEmitsSnapshotOrReport := by
  intro s
  obtain ⟨t, h⟩ := step_total s
  refine ⟨t, h, ?_⟩
  cases hs : s.status.terminal with
  | true => exact ⟨_, hostStep_of_terminal h hs, rfl, rfl, fun _ => ⟨rfl, rfl, rfl⟩, nofun⟩
  | false =>
    refine ⟨_, hostStep_of_performed h hs, rfl, rfl, nofun, fun _ => ⟨rfl, fun hrun => ?_, observed_of_not_running,
      fun hhalted => ?_, fun e herror => ?_, fun f hfault => ?_⟩⟩
    · simp [observed, reported, hrun]
    · simp [reported, hhalted]
    · simp [reported, herror]
    · simp [reported, hfault]

end Sys2Proof.Machine
end

section
/-! Soundness (`10_state.md` R20, R23, R35, R36; `42_register_ops.md` R160): every update that a step is made of keeps a sound
state sound, and so does a load inside its contract (`70_reset_and_hazards.md` R249). -/

namespace Sys2Proof

/-- R88: the integer operands of an instruction are among its words. -/
theorem mem_encode_of_mem_rawOperands (c : Config) (i : Instr) : ∀ v ∈ i.rawOperands, v ∈ encode c i := by
  have shape : Laws.EncodeShape.Statement i := by
    cases i with
    | error => exact Laws.EncodeShape.error
    | noop => exact Laws.EncodeShape.noop
    | rset reg literal => exact Laws.EncodeShape.rset reg literal
    | rcpy src dest => exact Laws.EncodeShape.rcpy src dest
    | radd accum addend => exact Laws.EncodeShape.radd accum addend
    | mset address reg => exact Laws.EncodeShape.mset address reg
    | mget address reg => exact Laws.EncodeShape.mget address reg
    | jilt reg literal target => exact Laws.EncodeShape.jilt reg literal target
  obtain ⟨-, -, -, hraw⟩ := shape c
  exact hraw

/-- R160: every width has room for 0. -/
theorem Config.fits_zero (c : Config) : c.fits 0 = true := by
  cases hw : c.valueWidth with
  | none => exact Config.fits_unbounded hw 0
  | some w =>
    have hpos : (0 : Int) < 2 ^ (w - 1) := by positivity
    simp only [Config.fits, hw, Bool.and_eq_true, decide_eq_true_eq]
    omega

end Sys2Proof

namespace Sys2Proof.Machine

variable {s t : State} {i : Instr} {c : Config} {m : Memory} {image : List Int} {offset : Int}

/-! ### The updates of a step -/

/-- R216: taking an exception keeps a session sound. -/
theorem State.Sound.raise (h : s.Sound) (k : Status) : (s.raise k).Sound where
  config := h.config
  canonical := h.canonical
  registers r := by simpa using h.registers r
  cells := h.cells
  addresses := h.addresses
  recorded := h.recorded

/-- R160: a register write of a value that fits keeps a session sound. -/
theorem State.Sound.setReg (h : s.Sound) (r : Reg) {v : Int} (hv : s.cfg.fits v = true) : (s.setReg r v).Sound where
  config := by simpa using h.config
  canonical := by simpa using h.canonical
  registers q := by
    rw [State.setReg_cfg, State.reg_setReg]
    split
    · exact hv
    · exact h.registers q
  cells := by simpa using h.cells
  addresses := by simpa using h.addresses
  recorded := by simpa using h.recorded

/-- R170: a store of a value that fits at a valid address keeps a session sound. -/
theorem State.Sound.memWrite (h : s.Sound) {a v : Int} (ha : s.cfg.okAddr a = true) (hv : s.cfg.fits v = true) :
    (s.memWrite a v).Sound where
  config := h.config
  canonical := Memory.write_wf h.canonical _ v
  registers r := by simpa using h.registers r
  cells b x hx := by
    rw [State.memWrite_mem, Memory.read_write] at hx
    split at hx
    · cases hx
      exact hv
    · exact h.cells b x hx
  addresses b x hx := by
    rw [State.memWrite_mem, Memory.read_write] at hx
    split at hx
    · next hb =>
      have hnonneg := Config.okAddr_nonneg ha
      rwa [hb, Int.toNat_of_nonneg hnonneg]
    · exact h.addresses b x hx
  recorded := h.recorded

/-- R33: recording an instruction whose operands fit keeps a session sound. -/
theorem State.Sound.record (h : s.Sound) (hi : i.wellFormed s.cfg = true) : (s.record i).Sound where
  config := h.config
  canonical := h.canonical
  registers r := by simpa using h.registers r
  cells := h.cells
  addresses := h.addresses
  recorded j hj := by
    cases hj
    exact hi

/-- R121, R124: a sound session whose IP has moved past words that could be fetched is sound. -/
theorem State.Sound.withIp_of_canFetch (h : s.Sound) {n : Nat} (hc : s.canFetch n) : (s.withIp (s.ip + n)).Sound := by
  cases n with
  | zero => simpa using h
  | succ n =>
    obtain ⟨-, hfits⟩ := hc n (Nat.lt_succ_self n)
    refine h.setReg .ip ?_
    rwa [Nat.cast_succ, ← add_assoc]

/-- R160: an instruction in the memory of a sound session has operands that fit. -/
theorem State.Sound.wellFormed_of_holds (h : s.Sound) {a : Int} (hh : s.holds a (encode s.cfg i)) :
    i.wellFormed s.cfg = true := by
  refine List.all_eq_true.mpr fun v hv => ?_
  obtain ⟨k, hk⟩ := List.mem_iff_getElem?.mp (mem_encode_of_mem_rawOperands s.cfg i v hv)
  exact h.cells _ v (hh k v hk)

/-- R127: the effect of an instruction whose operands fit keeps a session sound. -/
theorem Effect.sound (h : Effect i s t) (hs : s.Sound) (hi : i.wellFormed s.cfg = true) : t.Sound := by
  cases h with
  | plain _ => exact hs.record hi
  | register r v _ hv => exact (hs.setReg r hv).record (by simpa using hi)
  | cell a r _ ha => exact (hs.memWrite ha (hs.registers r)).record hi
  | _ => exact hs.raise _

/-- Settles O50: a raise only moves IP within words fetched; an effect starts from the sound state past its words. -/
theorem stepKeepsStatesSound : Obligations.StepKeepsStatesSound := by
  intro s t hs h
  rcases step_next_cases h with ⟨-, rfl⟩ | ⟨-, hperformed⟩
  · exact hs
  rcases hperformed.raised_or_completed with ⟨n, -, hc, -, ht⟩ | ⟨i, hh, hc, hexec, -⟩
  · rw [ht]
    exact (hs.withIp_of_canFetch hc).raise _
  · have hfetched : (s.fetched i.length).Sound := (hs.withIp_of_canFetch hc).raise .running
    exact (exec_effect hexec).sound hfetched (hs.wellFormed_of_holds hh)

/-! ### Load -/

/-- R249, R160: a load that answers was inside its contract, and leaves the loaded state. -/
theorem loadOver_next (h : loadOver c m image offset = .next t) :
    t = loadedState c m image offset ∧ 0 ≤ offset ∧ c.fits offset = true ∧
      imageFits c offset image.length = true ∧ ∀ v ∈ image, c.fits v = true := by
  unfold loadOver at h
  split at h
  · cases h
  next hoffset =>
  split at h
  · cases h
  next hfits =>
  split at h
  · cases h
  next himage =>
  split at h
  · cases h
  next hwords =>
  cases h
  refine ⟨rfl, not_lt.mp hoffset, by simpa using hfits, by simpa using himage, fun v hv => ?_⟩
  simpa using List.find?_eq_none.mp hwords v hv

/-- R249: a load answers or is refused. -/
theorem loadOver_next_or_refused (c : Config) (m : Memory) (image : List Int) (offset : Int) :
    (∃ t, loadOver c m image offset = .next t) ∨ ∃ r, loadOver c m image offset = .refused r := by
  cases h : loadOver c m image offset with
  | next t => exact .inl ⟨t, rfl⟩
  | fault f => cases f
  | refused r => exact .inr ⟨r, rfl⟩

/-- Settles O11: a load that is not refused was inside its contract. -/
theorem loadOutsideContractIsRefused : Obligations.LoadOutsideContractIsRefused := by
  intro c m image offset hout
  rcases loadOver_next_or_refused c m image offset with ⟨t, h⟩ | hrefused
  · obtain ⟨-, hoffset, -, himage, hwords⟩ := loadOver_next h
    rcases hout with hneg | hlong | ⟨v, hv, hwide⟩
    · omega
    · simp [himage] at hlong
    · simp [hwords v hv] at hwide
  · exact hrefused

/-- Settles O12: a load is given the old memory and the parameters, and nothing else of the session. -/
theorem loadForgetsTheOldProcessor : Obligations.LoadForgetsTheOldProcessor := by
  intro s t image offset hmem hcfg
  rw [State.load, State.load, hmem, hcfg]

/-- Settles O13: the empty load writes no cell, and State.reset has the fields of R246. -/
theorem resetIsTheEmptyFirstLoad : Obligations.ResetIsTheEmptyFirstLoad :=
  ⟨loadOver_of_contract [] (by decide) rfl rfl (by simp), rfl, rfl, rfl, rfl, rfl, rfl, Memory.read_nil⟩

/-- Settles O14: the host's four operations on no session. -/
theorem beforeTheFirstLoadTheHostIsRefused : Obligations.BeforeTheFirstLoadTheHostIsRefused := by
  rintro c op (rfl | ⟨n, rfl⟩ | rfl | rfl) <;> rfl

/-- R249: the addresses of an image that fits are valid. -/
theorem okAddr_of_imageFits {a : Nat} (hoffset : 0 ≤ offset) (himage : imageFits c offset image.length = true)
    (ha : a < offset.toNat + image.length) : c.okAddr a = true := by
  cases hw : c.addrWidth with
  | none => simp [Config.okAddr_unbounded hw]
  | some w =>
    simp only [imageFits, hw, decide_eq_true_eq] at himage
    simp only [Config.okAddr, hw, Bool.and_eq_true, decide_eq_true_eq]
    omega

/-- R246, R249: a load inside its contract, over a memory of valid cells, leaves a sound state. -/
theorem loadOver_sound (hc : c.wellFormed = true) (hm : Memory.wf m) (hcells : ∀ a v, m.read a = some v → c.fits v = true)
    (haddresses : ∀ a v, m.read a = some v → c.okAddr a = true) (h : loadOver c m image offset = .next t) :
    t.Sound := by
  obtain ⟨rfl, hoffset, hfits, himage, hwords⟩ := loadOver_next h
  have hzero := c.fits_zero
  exact {
    config := hc
    canonical := Memory.writeAll_wf hm _ image
    registers := fun r => by
      cases r with
      | ip => exact hfits
      | r1 | r2 | r3 => exact hzero
    cells := fun a v hv => by
      rw [loadedState_read] at hv
      split at hv
      · exact hwords v (List.mem_of_getElem? hv)
      · exact hcells a v hv
    addresses := fun a v hv => by
      rw [loadedState_read] at hv
      split at hv
      · next ha => exact okAddr_of_imageFits hoffset himage ha.2
      · exact haddresses a v hv
    recorded := nofun }

/-- Settles O51: the memory of a sound session has valid cells, and that of power-on has none. -/
theorem loadLeavesASoundState : Obligations.LoadLeavesASoundState :=
  ⟨fun _ _ _ _ hs => loadOver_sound hs.config hs.canonical hs.cells hs.addresses,
    fun _ _ _ _ hc => loadOver_sound hc List.Pairwise.nil nofun nofun⟩

/-- Log 1: a load keeps the parameters it is given. -/
theorem loadOver_cfg (h : loadOver c m image offset = .next t) : t.cfg = c := by
  obtain ⟨rfl, -⟩ := loadOver_next h
  rfl

/-- Settles O48: by the step's lemma and the load's. -/
theorem parametersNeverChange : Obligations.ParametersNeverChange :=
  ⟨fun _ _ => step_cfg, fun _ _ _ _ => loadOver_cfg⟩

/-- Settles O49: the reset state is a first load, and it is running. -/
theorem resetIsSound : Obligations.ResetIsSound := by
  obtain ⟨hload, -⟩ := resetIsTheEmptyFirstLoad
  obtain ⟨-, hfirst⟩ := loadLeavesASoundState
  exact ⟨hfirst Config.default State.reset [] defaultOffset (by decide) hload, trivial⟩

/-- R41: a cell that holds an opcode's number is listed with its mnemonic. -/
theorem opcodeNameOrEmpty_opNum (hc : c.wellFormed = true) (op : Opcode) :
    opcodeNameOrEmpty c (c.opNum op) = mnemonicOf op := by
  simp only [opcodeNameOrEmpty, Config.opDec_opNum hc]

/-- R41: a cell that holds no opcode's number is listed without a name. -/
theorem opcodeNameOrEmpty_of_unknown {v : Int} (h : ∀ op, c.opNum op ≠ v) : opcodeNameOrEmpty c v = [] := by
  simp only [opcodeNameOrEmpty, Config.opDec_eq_none_iff.mpr h]

/-- Settles O57: `dump` lists the entries of a canonical memory in order. -/
theorem dumpListsTheSetCells : Obligations.DumpListsTheSetCells := by
  intro s hs
  refine ⟨?_, fun a v => ?_, fun e he => ?_⟩
  · simpa [State.dump, Function.comp_def] using hs.canonical
  · rw [Memory.read_eq_some hs.canonical]
    simp [State.dump]
  · obtain ⟨⟨a, v⟩, -, rfl⟩ := List.mem_map.mp he
    refine ⟨fun op hop => ?_, opcodeNameOrEmpty_of_unknown⟩
    obtain rfl : s.cfg.opNum op = v := hop
    exact opcodeNameOrEmpty_opNum hs.config op

end Sys2Proof.Machine
end

section
/-! The status tells the truth (`60_exceptions.md` R206 to R213): each way a fetch or an effect raises leaves a status that its
grounds explain. -/

namespace Sys2Proof.Machine

variable {s t : State} {i : Instr}

/-- A running session has nothing to explain. -/
theorem State.StatusExplained.of_running (h : s.status = .running) : s.StatusExplained := by
  simp only [State.StatusExplained, h]

/-- R206 to R213: the grounds on which a fetch raised explain its status. -/
theorem FetchRaised.statusExplained (h : FetchRaised s t) : t.StatusExplained := by
  cases h with
  | badAddress ha => exact ha
  | valueRange hf => exact hf
  | halted hc hm =>
    show s.cfg.okAddr (s.ip + 1 - 1) = true ∧ s.memRead (s.ip + 1 - 1) = none
    rw [add_sub_cancel_right]
    exact ⟨State.okAddr_of_canFetch hc le_rfl (by omega), hm⟩
  | unknownOpcode w hc hm hd =>
    show s.cfg.okAddr (s.ip + 1 - 1) = true ∧ s.memRead (s.ip + 1 - 1) = some w ∧ _
    rw [add_sub_cancel_right]
    exact ⟨State.okAddr_of_canFetch hc le_rfl (by omega), hm, .inl hd⟩
  | argument op k hc hm hk _ _ hr =>
    have hok : s.cfg.okAddr s.ip = true := State.okAddr_of_canFetch hc le_rfl (by omega)
    cases hr with
    | unset ha _ hu =>
      show k < op.arity ∧ s.cfg.okAddr (s.ip + 1 + k + 1 - 1) = true ∧ s.memRead (s.ip + 1 + k + 1 - 1) = none ∧
        ∃ op' : Opcode, op'.arity = op.arity ∧ s.cfg.okAddr (s.ip + 1 + k + 1 - 2 - k) = true ∧
          s.memRead (s.ip + 1 + k + 1 - 2 - k) = some (s.cfg.opNum op')
      rw [add_sub_cancel_right, show s.ip + 1 + (k : Int) + 1 - 2 - k = s.ip by omega]
      exact ⟨hk, ha, hu, op, rfl, hok, hm⟩
    | valueRange hf => exact hf
    | badAddress ha => exact ha
  | badRegister op v k w hc hh _ hk hv hd =>
    have hok : s.cfg.okAddr s.ip = true := State.okAddr_of_canFetch hc le_rfl (by omega)
    obtain ⟨hm, hargs⟩ := State.holds_cons.mp hh
    refine ⟨hd, op, k, hk, ?_⟩
    show s.cfg.okAddr (s.ip + 1 + op.arity - op.arity - 1) = true ∧
      s.memRead (s.ip + 1 + op.arity - op.arity - 1) = some (s.cfg.opNum op) ∧
      s.memRead (s.ip + 1 + op.arity - op.arity + k) = some w
    rw [add_sub_cancel_right, add_sub_cancel_right]
    exact ⟨hok, hm, hargs k w hv⟩

/-- R141, R209, R211 to R213: an effect on the state past its instruction's words raises a status that those words and its own
test explain. -/
theorem Effect.statusExplained (hh : s.holds s.ip (encode s.cfg i)) (hc : s.canFetch i.length)
    (hd : s.cfg.opDec (s.cfg.opNum i.opcode) = some i.opcode) (h : Effect i (s.fetched i.length) t) :
    t.StatusExplained := by
  obtain ⟨hm, -⟩ := State.holds_cons.mp hh
  have hok : s.cfg.okAddr s.ip = true := State.okAddr_of_canFetch hc le_rfl (by rw [Instr.length]; omega)
  have hip : (s.fetched (Instr.length .error)).ip - 1 = s.ip := add_sub_cancel_right s.ip 1
  cases h with
  | plain _ => exact .of_running rfl
  | register r v _ _ => exact .of_running (by simp)
  | cell a r _ _ => exact .of_running rfl
  | errorFault hi hp =>
    subst hi
    refine ⟨hp, ?_⟩
    rw [State.raise_ip, hip]
    exact ⟨hok, hm⟩
  | errorUnknown hi hp =>
    subst hi
    show s.cfg.okAddr ((s.fetched (Instr.length .error)).ip - 1) = true ∧
      s.memRead ((s.fetched (Instr.length .error)).ip - 1) = some (s.cfg.opNum .error) ∧ _
    rw [hip]
    exact ⟨hok, hm, .inr ⟨hd, hp⟩⟩
  | badAddress a ha => exact ha
  | unsetLoad a ha hu => exact ⟨ha, hu⟩
  | valueRange v hv => exact hv

/-- R206 to R213: a performed step leaves an explained status, whatever it started from. -/
theorem Performed.statusExplained (h : Performed s t) : t.StatusExplained := by
  cases h with
  | fetchRaised h => exact h.statusExplained
  | executed i hh hc hd hexec => exact (exec_effect hexec).statusExplained hh hc hd

/-- Settles O52: a step that is performed explains its status, and one that is not keeps it. -/
theorem stepKeepsTheStatusExplained : Obligations.StepKeepsTheStatusExplained := by
  intro s t hs h
  rcases step_next_cases h with ⟨-, rfl⟩ | ⟨-, hperformed⟩
  · exact hs
  · exact hperformed.statusExplained

/-- Settles O46: an explained range fault names a value that does not fit, and unbounded values all fit. -/
theorem unboundedValuesNeverRaiseRangeFaults : Obligations.UnboundedValuesNeverRaiseRangeFaults := by
  intro s t v hwidth h hs ht
  rcases step_next_cases h with ⟨-, rfl⟩ | ⟨-, hperformed⟩
  · exact hs ht
  · have hexplained := hperformed.statusExplained
    simp only [State.StatusExplained, ht, step_cfg h, Config.fits_unbounded hwidth] at hexplained
    cases hexplained

end Sys2Proof.Machine
end

section
/-! The record is written and never read (`10_state.md` R33): the fetch, the effects and the step of a state with its record
forgotten are those of the state, with the record forgotten. -/

namespace Sys2Proof.Machine

/-- The state without its record. -/
def State.forget (s : State) : State := { s with last := none }

/-- The answer of a fetch, its state without the record. -/
def Fetched.forget {α : Type} : Fetched α → Fetched α
  | .raised s => .raised s.forget
  | .got a s => .got a s.forget

/-- A next state without its record. -/
def forgetRecord : Result → Result
  | .next t => .next t.forget
  | .fault f => .fault f
  | .refused r => .refused r

@[simp] theorem State.forget_cfg (s : State) : s.forget.cfg = s.cfg := rfl
@[simp] theorem State.forget_raise (s : State) (k : Status) : s.forget.raise k = (s.raise k).forget := rfl
@[simp] theorem State.forget_forget (s : State) : s.forget.forget = s.forget := rfl
@[simp] theorem State.forget_reg (s : State) (r : Reg) : s.forget.reg r = s.reg r := by cases r <;> rfl
@[simp] theorem State.forget_memRead (s : State) (a : Int) : s.forget.memRead a = s.memRead a := rfl

/-- R121: the fetch of a word does not read the record. -/
theorem fetchWord_forget (s : State) : fetchWord s.forget = (fetchWord s).forget := by
  rcases fetchWord_cases s with ⟨ha, hf, hw⟩ | ⟨ha, hf, hw⟩ | ⟨ha, hw⟩
  · rw [hw, fetchWord_got (s := s.forget) ha hf]
    rfl
  · rw [hw, fetchWord_valueRange (s := s.forget) ha hf]
    rfl
  · rw [hw, fetchWord_badAddress (s := s.forget) ha]
    rfl

/-- R124: the fetch of argument words does not read the record. -/
theorem fetchArgs_forget (n r k : Nat) (s : State) : fetchArgs n r k s.forget = (fetchArgs n r k s).forget := by
  induction r generalizing k s with
  | zero => rfl
  | succ r ih =>
    cases hw : fetchWord s with
    | raised t => simp [fetchArgs, fetchWord_forget, hw, Fetched.forget]
    | got cell t =>
      cases cell with
      | none => simp [fetchArgs, fetchWord_forget, hw, Fetched.forget]
      | some v =>
        cases hr : fetchArgs n r (k + 1) t <;> simp [fetchArgs, fetchWord_forget, hw, Fetched.forget, ih, hr]

/-- R121 to R126: the fetch of an instruction does not read the record. -/
theorem fetchInstr_forget (s : State) : fetchInstr s.forget = (fetchInstr s).forget := by
  cases hw : fetchWord s with
  | raised t => simp [fetchInstr, fetchWord_forget, hw, Fetched.forget]
  | got cell t =>
    cases cell with
    | none => simp [fetchInstr, fetchWord_forget, hw, Fetched.forget]
    | some w =>
      cases hd : t.cfg.opDec w with
      | none => simp [fetchInstr, fetchWord_forget, hw, Fetched.forget, hd]
      | some op =>
        cases hr : fetchArgs op.arity op.arity 0 t with
        | raised u => simp [fetchInstr, fetchWord_forget, hw, Fetched.forget, hd, fetchArgs_forget, hr]
        | got v u =>
          cases hv : u.cfg.decodeArgs op v <;>
            simp [fetchInstr, fetchWord_forget, hw, Fetched.forget, hd, fetchArgs_forget, hr, hv]

/-- R129: a register write does not read the record. -/
theorem finishWrite_forget (i : Instr) (r : Reg) (v : Int) (s : State) :
    forgetRecord (finishWrite i r v s.forget) = forgetRecord (finishWrite i r v s) := by
  cases hf : s.cfg.fits v with
  | true =>
    rw [finishWrite_fits hf, finishWrite_fits (s := s.forget) hf]
    cases r <;> rfl
  | false =>
    rw [finishWrite_not_fits hf, finishWrite_not_fits (s := s.forget) hf]
    rfl

/-- R51: the address test does not read the record. -/
theorem withAddress_forget (a : Int) (s : State) {access access' : Result}
    (h : forgetRecord access' = forgetRecord access) :
    forgetRecord (withAddress a s.forget access') = forgetRecord (withAddress a s access) := by
  cases ha : s.cfg.okAddr a with
  | true => rw [withAddress_ok ha, withAddress_ok (s := s.forget) ha, h]
  | false =>
    rw [withAddress_not_ok ha, withAddress_not_ok (s := s.forget) ha]
    rfl

/-- R127: no effect reads the record. -/
theorem exec_forget (i : Instr) (s : State) : forgetRecord (exec i s.forget) = forgetRecord (exec i s) := by
  cases i with
  | error => cases hp : s.cfg.errorExec <;> simp [exec, execError, hp] <;> rfl
  | noop => rfl
  | rset reg literal => exact finishWrite_forget _ _ _ s
  | rcpy src dest =>
    simp only [exec, execRcpy, regOperand, State.forget_reg]
    exact finishWrite_forget _ _ _ s
  | radd accum addend =>
    simp only [exec, execRadd, regOperand, State.forget_reg]
    exact finishWrite_forget _ _ _ s
  | mset address reg =>
    simp only [exec, execMset, regOperand, State.forget_reg]
    exact withAddress_forget _ s rfl
  | mget address reg =>
    refine withAddress_forget _ s ?_
    rw [State.forget_memRead]
    cases s.memRead (addrOperand address) with
    | none => rfl
    | some v => exact finishWrite_forget _ _ _ s
  | jilt reg literal target =>
    by_cases hless : s.reg reg < literal
    · rw [exec_jilt_taken hless, exec_jilt_taken (s := s.forget) (by simpa using hless)]
      exact finishWrite_forget _ _ _ s
    · rw [exec_jilt_not_taken hless, exec_jilt_not_taken (s := s.forget) (by simpa using hless)]
      rfl

/-- R129: neither the common part nor the effect reads the record. -/
theorem stepCore_forget (s : State) : forgetRecord (stepCore s.forget) = forgetRecord (stepCore s) := by
  cases hf : fetchInstr s with
  | raised t => simp [stepCore, fetchInstr_forget, hf, Fetched.forget, forgetRecord]
  | got i t =>
    simp only [stepCore, fetchInstr_forget, hf, Fetched.forget]
    exact exec_forget i t

/-- R33: the step does not read the record. -/
theorem step_forget (s : State) : forgetRecord (step s.forget) = forgetRecord (step s) := by
  cases hs : s.status.terminal with
  | true =>
    rw [step_terminal hs, step_terminal (s := s.forget) hs]
    rfl
  | false =>
    rw [step_performed hs, step_performed (s := s.forget) hs, State.resume_eq hs, State.resume_eq (s := s.forget) hs]
    exact stepCore_forget (s.raise .running)

/-- Settles O47: both states step as the one without the record. -/
theorem noStepReadsTheLastRecord : Obligations.NoStepReadsTheLastRecord := by
  intro s t u l ht hu
  have hsame : forgetRecord (.next u) = forgetRecord (.next t) := by
    calc forgetRecord (.next u) = forgetRecord (step { s with last := l }) := by rw [hu]
      _ = forgetRecord (step s.forget) := (step_forget { s with last := l }).symm
      _ = forgetRecord (.next t) := by rw [step_forget, ht]
  exact Host.Outcome.next.inj hsame

end Sys2Proof.Machine
end

section
/-! Runs (`70_reset_and_hazards.md` R252 to R254; `60_exceptions.md` R202, R204): a run answers, stays within its budget,
keeps what every step keeps, and goes on where an earlier one stopped. -/

namespace Sys2Proof.Machine

variable {s t : State}

/-! ### Resuming and exhausting -/

/-- R204: a resumed session is not `BudgetExceeded`. -/
theorem State.resume_status_ne_budgetExceeded (s : State) : s.resume.status ≠ .budgetExceeded := by
  cases hs : s.status.terminal with
  | true =>
    rw [State.resume_of_terminal hs]
    intro h
    simp [h, Status.terminal] at hs
  | false => simp [State.resume_status hs]

/-- R253: a session that is not running is not exhausted. -/
theorem State.exhaust_of_not_running (h : s.status ≠ .running) : s.exhaust = s := if_neg h

/-- R253: a running session is exhausted to `BudgetExceeded`. -/
theorem State.exhaust_of_running (h : s.status = .running) : s.exhaust = s.raise .budgetExceeded := if_pos h

/-- R253: an exhausted session is not running. -/
theorem State.exhaust_status_ne_running (s : State) : s.exhaust.status ≠ .running := by
  by_cases h : s.status = .running
  · simp [State.exhaust_of_running h]
  · rwa [State.exhaust_of_not_running h]

/-- R253: exhausting changes no cell. -/
@[simp] theorem State.exhaust_mem (s : State) : s.exhaust.mem = s.mem := by
  by_cases h : s.status = .running
  · rw [State.exhaust_of_running h, State.raise_mem]
  · rw [State.exhaust_of_not_running h]

/-- R204, R253: what exhausting named, resuming takes back. -/
theorem State.resume_exhaust (h : s.status ≠ .budgetExceeded) : s.exhaust.resume = s := by
  obtain ⟨c, ip, r1, r2, r3, m, status, last⟩ := s
  cases status with
  | budgetExceeded => exact absurd rfl h
  | running | halted | error | fault => rfl

/-! ### The loop -/

/-- R253: outside `Running` the loop stops at once. -/
theorem runTicks_of_not_running (h : s.status ≠ .running) (n : Nat) :
    runTicks n s = .next { final := s, invoked := [] } := by
  cases n with
  | zero => rfl
  | succ n => rw [runTicks, if_neg h]

/-- R253: in `Running` the loop steps and goes on. -/
theorem runTicks_succ {n : Nat} {r : RunRecord} (hs : s.status = .running) (hstep : step s = .next t)
    (hrest : runTicks n t = .next r) : runTicks (n + 1) s = .next { final := r.final, invoked := t :: r.invoked } := by
  rw [step_of_running hs] at hstep
  simp only [runTicks, if_pos hs, hstep, hrest]

/-- R130, R253: the loop answers. -/
theorem runTicks_total (n : Nat) (s : State) : ∃ r, runTicks n s = .next r := by
  induction n generalizing s with
  | zero => exact ⟨_, rfl⟩
  | succ n ih =>
    by_cases hs : s.status = .running
    · obtain ⟨t, hstep⟩ := step_total s
      obtain ⟨r, hrest⟩ := ih t
      exact ⟨_, runTicks_succ hs hstep hrest⟩
    · exact ⟨_, runTicks_of_not_running hs _⟩

/-- What every step keeps, the loop keeps. -/
theorem runTicks_keeps {P : State → Prop} (hP : ∀ s t, P s → step s = .next t → P t) {n : Nat} {r : RunRecord}
    (hs : P s) (h : runTicks n s = .next r) : P r.final := by
  induction n generalizing s r with
  | zero =>
    cases h
    exact hs
  | succ n ih =>
    rcases runTicks_succ_cases h with ⟨-, rfl⟩ | ⟨-, t, q, hstep, hrest, rfl⟩
    · exact hs
    · exact ih (r := q) (hP s t hs hstep) hrest

/-- R216: no step sets `BudgetExceeded`. -/
theorem step_status_ne_budgetExceeded (hs : s.status ≠ .budgetExceeded) (h : step s = .next t) :
    t.status ≠ .budgetExceeded := by
  rcases step_next_cases h with ⟨-, rfl⟩ | ⟨hlive, -⟩
  · exact hs
  · intro ht
    obtain ⟨hterminal, -⟩ := exceptionsArePrecise s t hlive h (by simp [ht])
    simp [ht, Status.terminal] at hterminal

/-- R253: a loop that leaves the session running spent all its ticks. -/
theorem runTicks_ticks_of_running {n : Nat} {r : RunRecord} (h : runTicks n s = .next r)
    (hrun : r.final.status = .running) : r.ticks = n := by
  induction n generalizing s r with
  | zero =>
    cases h
    rfl
  | succ n ih =>
    rcases runTicks_succ_cases h with ⟨hs, rfl⟩ | ⟨-, t, q, -, hrest, rfl⟩
    · exact absurd hrun hs
    · exact congrArg (· + 1) (ih hrest hrun)

/-- R254: a loop that goes on from where another one stopped is one loop with the ticks of both. -/
theorem runTicks_add {m n : Nat} {q r : RunRecord} (hq : runTicks m s = .next q) (hr : runTicks n q.final = .next r) :
    runTicks (m + n) s = .next { final := r.final, invoked := q.invoked ++ r.invoked } := by
  induction m generalizing s q with
  | zero =>
    cases hq
    rwa [Nat.zero_add]
  | succ m ih =>
    rcases runTicks_succ_cases hq with ⟨hs, rfl⟩ | ⟨hs, t, p, hstep, hrest, rfl⟩
    · rw [runTicks_of_not_running hs] at hr
      cases hr
      exact runTicks_of_not_running hs _
    · rw [Nat.add_right_comm]
      exact runTicks_succ hs hstep (ih hrest hr)

/-! ### The run -/

/-- R253: a run is its loop from the resumed session, with the end exhausted. -/
theorem run_of_runTicks {n : Int} {r : RunRecord} (h : runTicks n.toNat s.resume = .next r) :
    run n s = .next { final := r.final.exhaust, invoked := r.invoked } := by
  simp only [run, h]

/-- Settles O17: the step answers the state as it stands, and the loop stops at once. -/
theorem terminalStatusIsSticky : Obligations.TerminalStatusIsSticky := by
  intro s hs
  have hstopped : s.status ≠ .running := by
    intro h
    simp [h, Status.terminal] at hs
  refine ⟨step_terminal hs, fun n => ?_⟩
  have hloop := runTicks_of_not_running hstopped n.toNat
  rw [← State.resume_of_terminal hs] at hloop
  rw [run_of_runTicks hloop, State.resume_of_terminal hs, State.exhaust_of_not_running hstopped]

/-- Settles O18: step and run see the resumed session alone. -/
theorem budgetExceededResumes : Obligations.BudgetExceededResumes :=
  fun s => ⟨(step_resume { s with status := .budgetExceeded }).symm, fun _ => rfl⟩

/-- Settles O53: a loop without ticks stops at once, and its end is exhausted. -/
theorem emptyBudgetInvokesNoStep : Obligations.EmptyBudgetInvokesNoStep := by
  intro s n hn hs
  have hloop : runTicks n.toNat s.resume = .next { final := s.resume, invoked := [] } := by
    rw [Int.toNat_of_nonpos hn, runTicks]
  rw [run_of_runTicks hloop, State.exhaust_of_running (State.resume_status hs), State.resume_eq hs]
  rfl

/-- Settles O54: the loop answers within its ticks, and only a loop that spent them all leaves a session to exhaust. -/
theorem runStaysWithinItsBudget : Obligations.RunStaysWithinItsBudget := by
  intro s n
  obtain ⟨q, hq⟩ := runTicks_total n.toNat s.resume
  refine ⟨_, run_of_runTicks hq, runTicks_ticks_le (r := q) hq, State.exhaust_status_ne_running _, fun hend => ?_⟩
  have hlive : q.final.status ≠ .budgetExceeded :=
    runTicks_keeps (fun _ _ => step_status_ne_budgetExceeded) s.resume_status_ne_budgetExceeded hq
  by_cases hrun : q.final.status = .running
  · exact runTicks_ticks_of_running (r := q) hq hrun
  · rw [State.exhaust_of_not_running hrun] at hend
    exact absurd hend hlive

/-- Settles O56: the second run resumes the end that the first one exhausted, and the loops compose. -/
theorem runsCompose : Obligations.RunsCompose := by
  intro s m n q r hq hr
  obtain ⟨q, hqloop, rfl⟩ := run_next hq
  obtain ⟨r, hrloop, rfl⟩ := run_next hr
  have hlive : q.final.status ≠ .budgetExceeded :=
    runTicks_keeps (fun _ _ => step_status_ne_budgetExceeded) s.resume_status_ne_budgetExceeded hqloop
  rw [State.resume_exhaust hlive] at hrloop
  exact run_of_runTicks (n := (m + n : Nat)) (runTicks_add hqloop hrloop)

/-! ### Set cells -/

/-- R39: a write unsets no cell. -/
theorem Memory.write_read_ne_none {m : Memory} {b : Nat} (h : m.read b ≠ none) (a : Nat) (v : Int) :
    (m.write a v).read b ≠ none := by
  rw [Memory.read_write]
  split
  · simp
  · exact h

/-- R39, R67: a step unsets no cell, since memory is kept or written. -/
theorem step_read_ne_none {a : Nat} (hs : s.mem.read a ≠ none) (h : step s = .next t) : t.mem.read a ≠ none := by
  rcases step_mem_eq_or_mset h with hmem | ⟨address, reg, -, -, -, hmem⟩
  · rwa [hmem]
  · rw [hmem]
    exact Memory.write_read_ne_none hs _ _

/-- R39, R243: a load overlays memory and unsets no cell. -/
theorem loadedState_read_ne_none {m : Memory} {a : Nat} (h : m.read a ≠ none) (c : Config) (image : List Int)
    (offset : Int) : (loadedState c m image offset).mem.read a ≠ none := by
  rw [loadedState_read]
  split
  · rw [List.getElem?_eq_getElem (by omega)]
    simp
  · exact h

/-- Settles O42: a step unsets no cell, a run is steps, and a load overlays. -/
theorem setCellsStaySet : Obligations.SetCellsStaySet := by
  refine ⟨fun s t a h hs => step_read_ne_none hs h, fun s r n a h hs => ?_, fun s t image offset a h hs => ?_⟩
  · obtain ⟨q, hq, rfl⟩ := run_next h
    rw [State.exhaust_mem]
    exact runTicks_keeps (P := fun u => u.mem.read a ≠ none) (fun _ _ => step_read_ne_none) (by simpa using hs) hq
  · obtain ⟨rfl, -⟩ := loadOver_next h
    exact loadedState_read_ne_none hs _ _ _

end Sys2Proof.Machine
end
